-- ==== Sys2Proof/Word.lean ====
section
/-! DEFINITION. The word types of the hardware (00_scope.md R5 `W`, R8, R9).

A word is an unsigned 32-bit integer: bit 0 is the least significant, and there is no signed operation anywhere.
`a +32 b`, `a *32 b`, XOR, AND, OR and the two logical shifts by a constant of R9 are `BitVec`'s `+`, `*`, `^^^`,
`&&&`, `|||`, `>>>` and `<<<` at width 32: they wrap silently, and no flag records it. -/

namespace Sys2Proof

/-- `u32` (R8): a state word, a seed, an output, an entropy sample, a hash. -/
abbrev Word := BitVec 32

/-- One byte of a word, as `mix` visits it (R33). -/
abbrev Byte := BitVec 8

/-- A command word `CMD[67:0]` (R40). It is presented whole: it has no byte order. -/
abbrev CommandWord := BitVec 68

/-- A response word `RSP[33:0]` (R46). -/
abbrev ResponseWord := BitVec 34

end Sys2Proof
end

