-- ==== Sys2Proof/Config.lean ====
section
/-! DEFINITION. The constants the source fixes (00_scope.md R5) and the type of the two open parameters (R6).

`CYCLE_FOLD_SHIFT` of R5 is the host's (R4, R57) and has no use inside the block, so it has no definition here. -/

namespace Sys2Proof

namespace Config

/-- `N`: words of the state array, outputs per twist (R5). -/
abbrev n : Nat := 624

/-- `M`: offset of the third read of a twist (R5). -/
abbrev m : Nat := 397

/-- `UPPER_MASK`: bit 31 only (R5). -/
def upperMask : Word := 0x80000000

/-- `LOWER_MASK`: bits 30 to 0 (R5). -/
def lowerMask : Word := 0x7FFFFFFF

/-- `MATRIX_A` (R5). -/
def matrixA : Word := 0x9908B0DF

/-- `INIT_MULT`, 1 812 433 253 (R5). -/
def initMult : Word := 0x6C078965

/-- `INIT_SHIFT` (R5). -/
def initShift : Nat := 30

/-- `TEMPER_U` (R5). -/
def temperU : Nat := 11

/-- `TEMPER_S` (R5). -/
def temperS : Nat := 7

/-- `TEMPER_B` (R5). -/
def temperB : Word := 0x9D2C5680

/-- `TEMPER_T` (R5). -/
def temperT : Nat := 15

/-- `TEMPER_C` (R5). -/
def temperC : Word := 0xEFC60000

/-- `TEMPER_L` (R5). -/
def temperL : Nat := 18

/-- `IDX_EXHAUSTED`: the value of `IDX` that says a twist is due (R5, R16). -/
def idxExhausted : Fin 625 := ⟨624, by decide⟩

end Config

/-- The two open parameters of `mix` (R6, D14): arguments of the model, under no law. -/
structure MixParams where
  offsetBasis : Word
  prime       : Word
  deriving DecidableEq, Repr

/-- The defaults R6 offers, the published 32-bit FNV-1a constants. PRESUMED, unsafe where a claim rests on them
(notes/assumptions/3.md): the source names the two constants and gives neither value. -/
def MixParams.default : MixParams := { offsetBasis := 0x811C9DC5, prime := 0x01000193 }

end Sys2Proof
end

