-- ==== Sys2Proof/Syntax.lean ====
section
/-! DEFINITION. Commands, responses, entropy inputs and assembler lines as data (30_encoding.md R42, R46, R47, R50 to
R53; 41_seed_mixer.md R56). One constructor of `Instr` per row of spec/opcode_table.json. -/

namespace Sys2Proof

/-- A decoded command (R42, R50). A field the command does not use is not part of it (R44). -/
inductive Instr where
  /-- `MIX a, b` (41_seed_mixer.md R59). -/
  | mix (a b : Word)
  /-- `INIT seed` (42_engine.md R68). -/
  | init (seed : Word)
  /-- `TWIST` (42_engine.md R72). -/
  | twist
  /-- `NEXT` (42_engine.md R80). -/
  | next
  /-- `TEMPER y` (42_engine.md R77). -/
  | temper (y : Word)
  /-- `NEW seed` (43_construction.md R87); `seed` = 0 asks for an auto-seed. -/
  | new (seed : Word)
  deriving DecidableEq, Repr

/-- Why a command word selects no command: its `OP` is reserved (R45). -/
inductive DecodeError where
  | reservedOpcode (op : BitVec 4)
  deriving DecidableEq, Repr

/-- The error causes (60_exceptions.md R98). -/
inductive ErrorCause where
  /-- `EntropySourceError` (R95). -/
  | entropy
  /-- The command needs a constructed generator (R96). -/
  | unseeded
  /-- Reserved opcode (R97). -/
  | illegal
  deriving DecidableEq, Repr

/-- The outcome of a command (R47). -/
inductive Status where
  | ok
  | err (cause : ErrorCause)
  deriving DecidableEq, Repr

/-- The one response of a command (R46). -/
structure Response where
  status : Status
  data   : Word
  deriving DecidableEq, Repr

/-- The values at the five entropy inputs (41_seed_mixer.md R56): `ENT_HW`, `ENT_HW_OK`, `ENT_WALL`, `ENT_PERF`,
`ENT_CYC`. The host supplies them, and nothing is assumed of them. -/
structure Entropy where
  hw   : Word
  hwOk : Bool
  wall : Word
  perf : Word
  cyc  : Word
  deriving DecidableEq, Repr

/-- What the host does at the ports, one transaction each (R53, R54; 70_reset_and_hazards.md R111). The handshake
wires themselves are informative and are not represented (R53). -/
inductive HostInput where
  /-- It presents a command word. -/
  | command (word : CommandWord)
  /-- It takes the pending response. -/
  | takeResponse
  /-- It changes the values at the entropy inputs. -/
  | entropy (e : Entropy)
  /-- It asserts `rst`. -/
  | reset
  deriving DecidableEq, Repr

/-- The mnemonics of the assembler (R51). -/
inductive Mnemonic where
  | mix
  | init
  | twist
  | next
  | temper
  | new
  deriving DecidableEq, Repr

/-- One line of a command list, read but not yet checked: the mnemonic and the operands written after it (R51). -/
structure AsmLine where
  mnemonic : Mnemonic
  operands : List Nat
  deriving DecidableEq, Repr

/-- Why a line of text is no command (R51). -/
inductive AsmError where
  /-- The first word is none of the six mnemonics. -/
  | unknownMnemonic
  /-- An operand is no unsigned integer in decimal or hexadecimal. -/
  | malformedOperand
  /-- The number of operands is not the command's. -/
  | operandCount
  /-- An operand is 2³² or more. -/
  | operandRange
  deriving DecidableEq, Repr

end Sys2Proof
end

