-- ==== Sys2Proof/WellFormed.lean ====
section
/-! DEFINITION. Which command words, commands, responses and assembler lines are well formed (30_encoding.md R43, R44,
R45, R48, R50, R51). The checks on words are written over the word as a number, apart from the decoder's field
extraction, so that the two can be compared. -/

namespace Sys2Proof

/-- The word selects a command: `OP` is 0x1 to 0x6 (R42, R45). -/
def CommandWord.legal (w : CommandWord) : Bool :=
  1 ≤ w.toNat / 2 ^ 64 && w.toNat / 2 ^ 64 ≤ 6

/-- The word is legal and every field its command ignores is zero (R44, R50). -/
def CommandWord.canonical (w : CommandWord) : Bool :=
  match w.toNat / 2 ^ 64 with
  | 1 => true
  | 2 => w.toNat % 2 ^ 32 == 0
  | 3 => w.toNat % 2 ^ 64 == 0
  | 4 => w.toNat % 2 ^ 64 == 0
  | 5 => w.toNat % 2 ^ 32 == 0
  | 6 => w.toNat % 2 ^ 32 == 0
  | _ => false

/-- Every command is well formed: all 2³² values of each operand are legal, none is reserved (R43). -/
def Instr.wellFormed : Instr → Bool
  | .mix _ _ => true
  | .init _ => true
  | .twist => true
  | .next => true
  | .temper _ => true
  | .new _ => true

/-- `DATA` = 0 with any error status (R48). -/
def Response.wellFormed (r : Response) : Bool :=
  match r.status with
  | .ok => true
  | .err _ => r.data == 0

/-- How many operands a mnemonic takes (R51); `NEW` also takes none (R52). -/
def Mnemonic.takes (m : Mnemonic) (count : Nat) : Bool :=
  match m with
  | .mix => count == 2
  | .init => count == 1
  | .twist => count == 0
  | .next => count == 0
  | .temper => count == 1
  | .new => count ≤ 1

/-- The line has its command's number of operands, each below 2³² (R51, R52). -/
def AsmLine.wellFormed (l : AsmLine) : Bool :=
  l.mnemonic.takes l.operands.length && l.operands.all (· < 2 ^ 32)

end Sys2Proof
end

