-- ==== Sys2Proof/Decode.lean ====
section
/-! DEFINITION. Decoding and encoding of command and response words (30_encoding.md R40 to R50, R55). -/

namespace Sys2Proof

/-- `OP` = `CMD[67:64]` (R41). -/
def opcodeOf (w : CommandWord) : BitVec 4 := w.extractLsb' 64 4

/-- `A` = `CMD[63:32]` (R41, R43). -/
def operandA (w : CommandWord) : Word := w.extractLsb' 32 32

/-- `B` = `CMD[31:0]` (R41, R43). -/
def operandB (w : CommandWord) : Word := w.extractLsb' 0 32

/-- `{OP, A, B}` (R41). -/
def packCommand (op : BitVec 4) (a b : Word) : CommandWord := op ++ a ++ b

/-- `decode(CMD)` (R50): total; a reserved `OP` is rejected under its own value (R45). -/
def decode (w : CommandWord) : Except DecodeError Instr :=
  match (opcodeOf w).toNat with
  | 0x1 => .ok (.mix (operandA w) (operandB w))
  | 0x2 => .ok (.init (operandA w))
  | 0x3 => .ok .twist
  | 0x4 => .ok .next
  | 0x5 => .ok (.temper (operandA w))
  | 0x6 => .ok (.new (operandA w))
  | _   => .error (.reservedOpcode (opcodeOf w))

/-- `encode(c)`: the canonical word of a command, ignored fields zero (R50, R51). -/
def encode : Instr → CommandWord
  | .mix a b  => packCommand 0x1 a b
  | .init s   => packCommand 0x2 s 0
  | .twist    => packCommand 0x3 0 0
  | .next     => packCommand 0x4 0 0
  | .temper y => packCommand 0x5 y 0
  | .new s    => packCommand 0x6 s 0

/-- The `match` of each row of the opcode table, with the command its row selects (R55). -/
def opcodeTable : List (CommandWord × (Word → Word → Instr)) :=
  [ (0x10000000000000000, fun a b => .mix a b),
    (0x20000000000000000, fun a _ => .init a),
    (0x30000000000000000, fun _ _ => .twist),
    (0x40000000000000000, fun _ _ => .next),
    (0x50000000000000000, fun a _ => .temper a),
    (0x60000000000000000, fun a _ => .new a) ]

/-- The `mask` of every row of the opcode table (R55). -/
def opcodeMask : CommandWord := 0xF0000000000000000

/-- The decoder written from the table alone (R55): the row with `CMD & mask == match`, or none. -/
def decodeByTable (w : CommandWord) : Option Instr :=
  (opcodeTable.find? fun row => w &&& opcodeMask == row.1).map fun row => row.2 (operandA w) (operandB w)

/-- A command word given as a number in the opcode table's own numbering: the one word of 68 bits, bit 0 its least
significant (notes/assumptions/14.md). -/
def commandWordOfNat (nbits w : Nat) : Option CommandWord :=
  if w % 2 ^ nbits < 2 ^ 68 then some (BitVec.ofNat 68 (w % 2 ^ nbits)) else none

/-- The command the decoder reads from a table word. -/
def decodeTableWord (nbits w : Nat) : Option Instr :=
  match commandWordOfNat nbits w with
  | none => none
  | some c =>
    match decode c with
    | .ok i => some i
    | .error _ => none

/-- The code of an error (R47, R98). -/
def ErrorCause.code : ErrorCause → BitVec 2
  | .entropy  => 1
  | .unseeded => 2
  | .illegal  => 3

/-- `STATUS` (R47). -/
def Status.code : Status → BitVec 2
  | .ok    => 0
  | .err e => e.code

/-- The status a code stands for; all four codes are used (R47). -/
def statusOfCode (c : BitVec 2) : Status :=
  match c.toNat with
  | 0 => .ok
  | 1 => .err .entropy
  | 2 => .err .unseeded
  | _ => .err .illegal

/-- `RSP` = `{STATUS, DATA}` (R46). -/
def Response.toWord (r : Response) : ResponseWord := r.status.code ++ r.data

/-- What a host reads in a response word (R46). -/
def responseOfWord (w : ResponseWord) : Response :=
  { status := statusOfCode (w.extractLsb' 32 2), data := w.extractLsb' 0 32 }

end Sys2Proof
end

