-- ==== Sys2Proof/Machine/State.lean ====
section
/-! DEFINITION. The state, the reasons a step can stop, and the state after reset (10_state.md R15 to R18, R24, R26;
30_encoding.md R53, R54; 70_reset_and_hazards.md R112). -/

namespace Sys2Proof.Machine

/-- The state array as word index and word, indices strictly rising, an index that is not listed holding no value
(20_memory.md R28, 10_state.md R26). The unit is the spec's own, one 32-bit word: the array has no byte view (R28, R33),
so a cell is a word and not a `Host.Cell` (notes/assumptions/2.md). -/
abbrev Memory := List (Nat × Word)

/-- Everything the step reads and writes.

`mt`, `idx` and `seeded` are the complete architectural state (R21); `response` is the response port (R112). The other
three fields are the arguments of the spec's step that are not state (R7, R24): they belong to the host or to the
implementation, and no command writes them. -/
structure State where
  /-- `MT[0..623]` (R15). -/
  mt       : Memory
  /-- `IDX`, the integers 0 to 624 (R16, D21). -/
  idx      : Fin 625
  /-- `SEEDED` (R18). -/
  seeded   : Bool
  /-- The response the engine holds until the host takes it (R54, R112). -/
  response : Option Response
  /-- The values the host holds at the entropy inputs (R56). -/
  entropy  : Entropy
  /-- What the host will do at the ports, oldest first (R53, R54). -/
  inputs   : List HostInput
  /-- `FNV_OFFSET_BASIS` and `FNV_PRIME` (R6). -/
  params   : MixParams
  deriving DecidableEq, Repr

/-- Why the machine stops. -/
inductive Fault where
  /-- Raised by a read of a word of `MT` that holds no value (`memRead`, for TWIST and NEXT, while `SEEDED` = 1). The
  invariant of R17 rules it out in every reachable state. Safe: the machine stops where the spec gives no value. -/
  | valuelessWord (i : Fin 624)
  deriving DecidableEq, Repr

/-- Why a command has no meaning here. -/
inductive Refusal where
  /-- Raised by `exec` for a command with no meaning yet; no arm of `exec` raises it. Safe: nothing is claimed of it. -/
  | notModelled (mnemonic : String)
  deriving DecidableEq, Repr

/-- The state right after reset (R26, R112): no generator, `IDX` = 624, no word of `MT` holds a value, no response
pending. The host's side is at the values notes/assumptions/3.md, 4.md and 5.md name. -/
def State.reset : State where
  mt       := []
  idx      := Config.idxExhausted
  seeded   := false
  response := none
  entropy  := { hw := 0, hwOk := false, wall := 0, perf := 0, cyc := 0 }
  inputs   := []
  params   := MixParams.default

end Sys2Proof.Machine
end

