-- ==== Sys2Proof/Machine/Ops.lean ====
section
/-! DEFINITION. The shared operations: access to the state array (20_memory.md R28, R30), responding and raising an
error (00_scope.md R11, 30_encoding.md R46, 60_exceptions.md R94), reset (70_reset_and_hazards.md R111 to R113).

Raising an error is this hardware's whole exception entry: no state is saved, no handler runs, control goes nowhere
(R102), and there is no return to model (R103). -/

namespace Sys2Proof.Machine

/-- What a word index reads as: the value most recently written there, if any (R30). -/
def Memory.read : Memory → Nat → Option Word
  | [], _ => none
  | (b, w) :: m, a => if a = b then some w else Memory.read m a

/-- Replace the whole word at an index (R30), keeping the cells in rising order. -/
def Memory.write : Memory → Nat → Word → Memory
  | [], a, v => [(a, v)]
  | (b, w) :: m, a, v =>
    if a < b then (a, v) :: (b, w) :: m
    else if a = b then (a, v) :: m
    else (b, w) :: Memory.write m a v

/-- The canonical form: indices strictly rising and inside the array (R15, R28). An unlisted index holds no value, so no
entry can equal it. -/
abbrev Memory.wf (m : Memory) : Prop :=
  m.Pairwise (fun c d => c.1 < d.1) ∧ ∀ c ∈ m, c.1 < 624

/-- `MemRead(i, 4)`, written `MT[i]` (R11, R30). The address type holds the five forms of R31 and nothing else. -/
def memRead (m : Memory) (i : Fin 624) : Except Fault Word :=
  match m.read i.val with
  | some v => .ok v
  | none => .error (.valuelessWord i)

/-- `MemWrite(i, 4, v)`, written `MT[i] <- v` (R11, R30). -/
def memWrite (m : Memory) (i : Fin 624) (v : Word) : Memory := m.write i.val v

/-- `respond(st, d)` (R46): the response of the command. -/
def respond (st : Status) (d : Word) (s : State) : State := { s with response := some ⟨st, d⟩ }

/-- `raise <Error>` (R94): the response is the error's code with `DATA` = 0, and no architectural state changes. -/
def raise (e : ErrorCause) (s : State) : State := respond (.err e) 0 s

/-- What asserting `rst` does to the block (R111, R112): no generator, `IDX` = 624, `MT` unspecified, no response
pending. The host's side is not the block's, and stays (notes/assumptions/7.md). -/
def resetBlock (s : State) : State :=
  { s with mt := [], idx := Config.idxExhausted, seeded := false, response := none }

end Sys2Proof.Machine
end

