-- ==== Sys2Proof/Machine/Flags.lean ====
section
/-! DEFINITION. There are no status flags and no condition codes (10_state.md R20): overflow wraps and is recorded
nowhere. What is here are the tests the hardware makes (42_engine.md R85) that read one bit, and the named conditions of
10_state.md R19, which are readings of `SEEDED` and `IDX` and not state. -/

namespace Sys2Proof.Machine

/-- "if `y` is odd": the test of the twist's `y[0]`, kept nowhere (R20, R70). -/
def isOdd (y : Word) : Bool := y.getLsbD 0

/-- The named conditions of R19. Fresh and Exhausted are one: the hardware does not record which of the two it is in. -/
inductive Condition where
  | unseeded
  | freshOrExhausted
  | running
  deriving DecidableEq, Repr

/-- The condition a state is in (R19). -/
def condition (s : State) : Condition :=
  if s.seeded then
    if s.idx.val < 624 then .running else .freshOrExhausted
  else .unseeded

end Sys2Proof.Machine
end

