-- ==== Sys2Proof/Machine/Operands.lean ====
section
/-! DEFINITION. Operand forms: the bytes of a word as `mix` visits them (20_memory.md R33) and the array addresses
(20_memory.md R31). The operands `A` and `B` themselves are whole fields of the command word (30_encoding.md R43) and are
taken apart in Decode.lean. -/

namespace Sys2Proof.Machine

/-- `byte_k(v)` = `v[8k+7 : 8k]`, byte 0 the least significant (R11, R33). -/
def byteOf (v : Word) (k : Nat) : Byte := v.extractLsb' (8 * k) 8

/-- The four bytes of a word, least significant first (R33). -/
def bytesOf (v : Word) : List Byte := [byteOf v 0, byteOf v 1, byteOf v 2, byteOf v 3]

/-- `k mod 624` as an array address (R9, R31). -/
def wordAddr (k : Nat) : Fin 624 := ⟨k % 624, Nat.mod_lt k (by decide)⟩

/-- `(i + 1) mod 624` (R31). -/
def nextAddr (i : Fin 624) : Fin 624 := wordAddr (i.val + 1)

/-- `(i + 397) mod 624` (R31). -/
def middleAddr (i : Fin 624) : Fin 624 := wordAddr (i.val + Config.m)

end Sys2Proof.Machine
end

