-- ==== Sys2Proof/Machine/Engine.lean ====
section
/-! DEFINITION. The engine: seed expansion, twist, temper, output, and the commands INIT, TWIST, NEXT, TEMPER
(42_engine.md R67 to R86). -/

namespace Sys2Proof.Machine

/-- One iteration of `init_array`: word `i` from its predecessor `p` (R67). -/
def initWord (p : Word) (i : Nat) : Word :=
  Config.initMult * (p ^^^ (p >>> Config.initShift)) + BitVec.ofNat 32 i

/-- `init_array` up to and with word `k`: that word, and the array so far. The loop hands on the word it wrote last, which
is what the next iteration reads back (R67; notes/assumptions/8.md). -/
def initThrough (seed : Word) : Nat → Memory → Word × Memory
  | 0, m => (seed, memWrite m (wordAddr 0) seed)
  | k + 1, m =>
    match initThrough seed k m with
    | (p, m') => (initWord p (k + 1), memWrite m' (wordAddr (k + 1)) (initWord p (k + 1)))

/-- The iterations of `init_array`, i = 1 to 623 (R10, R67). Irreducible, so that no proof unfolds the loop by accident;
the kernel evaluates it all the same. -/
@[irreducible] def initIterations : Nat := 623

/-- `init_array(seed)` (R67). -/
def initArray (seed : Word) (m : Memory) : Memory := (initThrough seed initIterations m).2

/-- What a successful INIT or NEW leaves (R68, R87): the array from the seed, `IDX` = 624, `SEEDED` = 1. -/
def construct (seed : Word) (s : State) : State :=
  { s with mt := initArray seed s.mt, idx := Config.idxExhausted, seeded := true }

/-- INIT (R68): succeeds in every state; no data. -/
def execInit (seed : Word) (s : State) : Host.Outcome State Fault Refusal :=
  .next (respond .ok 0 (construct seed s))

/-- `y` of a twist iteration: bit 31 of `u` above bits 30:0 of `l` (R70). -/
def twistY (u l : Word) : Word := (u &&& Config.upperMask) ||| (l &&& Config.lowerMask)

/-- The word a twist iteration writes, from the three words it reads (R70). -/
def twistWord (u l m : Word) : Word :=
  if isOdd (twistY u l) then m ^^^ (twistY u l >>> 1) ^^^ Config.matrixA else m ^^^ (twistY u l >>> 1)

/-- `twist_step(i)` on the array as it stands (R70): three reads, then the one write. -/
def twistStep (i : Fin 624) (m : Memory) : Except Fault Memory :=
  match memRead m i with
  | .error f => .error f
  | .ok u =>
    match memRead m (nextAddr i) with
    | .error f => .error f
    | .ok l =>
      match memRead m (middleAddr i) with
      | .error f => .error f
      | .ok w => .ok (memWrite m i (twistWord u l w))

/-- The array after iterations 0 to `k` − 1, in place and in ascending order (R71, R74). -/
def twistFirst : Nat → Memory → Except Fault Memory
  | 0, m => .ok m
  | k + 1, m =>
    match twistFirst k m with
    | .error f => .error f
    | .ok m' => twistStep (wordAddr k) m'

/-- The iterations of a twist, i = 0 to 623 (R10, R71). Irreducible, as `initIterations` is. -/
@[irreducible] def twistIterations : Nat := 624

/-- `twist()` (R71): all 624 iterations, then `IDX <- 0`. -/
def twist (s : State) : Except Fault State :=
  match twistFirst twistIterations s.mt with
  | .error f => .error f
  | .ok m => .ok { s with mt := m, idx := 0 }

/-- TWIST (R72): refuses before construction, else twists whatever `IDX` is. -/
def execTwist (s : State) : Host.Outcome State Fault Refusal :=
  if s.seeded then
    match twist s with
    | .error f => .fault f
    | .ok t => .next (respond .ok 0 t)
  else .next (raise .unseeded s)

/-- `temper(y)` (R76): each line uses the word the line before it left. -/
def temper (y : Word) : Word :=
  let y1 := y ^^^ (y >>> Config.temperU)
  let y2 := y1 ^^^ ((y1 <<< Config.temperS) &&& Config.temperB)
  let y3 := y2 ^^^ ((y2 <<< Config.temperT) &&& Config.temperC)
  y3 ^^^ (y3 >>> Config.temperL)

/-- TEMPER (R77): responds with the tempered operand in every state and touches none of it. -/
def execTemper (y : Word) (s : State) : Host.Outcome State Fault Refusal :=
  .next (respond .ok (temper y) s)

/-- The first line of `next()` (R79): twist when `IDX` = 624, and the address of the word to return. -/
def refresh (s : State) : Except Fault (Fin 624 × State) :=
  if h : s.idx.val < 624 then .ok (⟨s.idx.val, h⟩, s)
  else
    match twist s with
    | .error f => .error f
    | .ok t => .ok (0, t)

/-- `next()` (R79): the tempered word `MT[IDX]`, and `IDX` + 1; the word itself is not changed. -/
def nextOutput (s : State) : Except Fault (Word × State) :=
  match refresh s with
  | .error f => .error f
  | .ok (i, t) =>
    match memRead t.mt i with
    | .error f => .error f
    | .ok w => .ok (temper w, { t with idx := i.succ })

/-- NEXT (R80): refuses before construction, else responds with the next output. -/
def execNext (s : State) : Host.Outcome State Fault Refusal :=
  if s.seeded then
    match nextOutput s with
    | .error f => .fault f
    | .ok (d, t) => .next (respond .ok d t)
  else .next (raise .unseeded s)

end Sys2Proof.Machine
end

