-- ==== Sys2Proof/Machine/SeedMixer.lean ====
section
/-! DEFINITION. The seed mixer: `mix`, the seed derivation, and the command MIX (41_seed_mixer.md R56 to R66). -/

namespace Sys2Proof.Machine

/-- One step of `mix`: XOR the byte into the running hash, then multiply by the prime (R58). -/
def mixByte (p : MixParams) (h : Word) (x : Byte) : Word := (h ^^^ x.setWidth 32) * p.prime

/-- One byte pass: the four bytes of `a`, then the four of `b`, least significant first (R58, D13). -/
def mixPass (p : MixParams) (a b h : Word) : Word := (bytesOf a ++ bytesOf b).foldl (mixByte p) h

/-- `mix(a, b)`: the byte pass twice from the offset basis, the hash carried from pass to pass (R58, D13). UNVERIFIED
against the repository, as the spec says of its reading (notes/assumptions/10.md). -/
def mix (p : MixParams) (a b : Word) : Word := mixPass p a b (mixPass p a b p.offsetBasis)

/-- Step 1 of the derivation, `base <- hw +32 wall` (R61). -/
def seedBase (e : Entropy) : Word := e.hw + e.wall

/-- Step 2, computed and then unused (R62): `deriveSeed` leaves it out, as R62 allows. -/
def mixed1 (p : MixParams) (e : Entropy) : Word := mix p (seedBase e) e.perf

/-- Step 3, `mixed2 <- mix(base, cyc)` (R61). -/
def mixed2 (p : MixParams) (e : Entropy) : Word := mix p (seedBase e) e.cyc

/-- `derive_seed` (R61): `mix(base, mixed2)`. A result of zero is not special (R63). -/
def deriveSeed (p : MixParams) (e : Entropy) : Word := mix p (seedBase e) (mixed2 p e)

/-- MIX (R59): responds with the hash in every state and touches none of it. -/
def execMix (a b : Word) (s : State) : Host.Outcome State Fault Refusal :=
  .next (respond .ok (mix s.params a b) s)

end Sys2Proof.Machine
end

