-- ==== Sys2Proof/Machine/Construction.lean ====
section
/-! DEFINITION. Construction: the command NEW (43_construction.md R87 to R93). -/

namespace Sys2Proof.Machine

/-- The seed NEW constructs with (R87): the operand when it is not zero, else the seed derived from the entropy inputs as
they stand, or the error when the hardware sample is missing. The zero test looks at the operand alone (R91). -/
def chooseSeed (a : Word) (p : MixParams) (e : Entropy) : Except ErrorCause Word :=
  if a = 0 then
    if e.hwOk then .ok (deriveSeed p e) else .error .entropy
  else .ok a

/-- NEW (R87): the failure is found before any write (R92), and then nothing is written (R90). The seed is not
returned. -/
def execNew (a : Word) (s : State) : Host.Outcome State Fault Refusal :=
  match chooseSeed a s.params s.entropy with
  | .error e => .next (raise e s)
  | .ok seed => .next (respond .ok 0 (construct seed s))

end Sys2Proof.Machine
end

