-- ==== Sys2Proof/Machine/Dispatch.lean ====
section
/-! DEFINITION. One arm per command, each one call of its meaning (30_encoding.md R42). -/

namespace Sys2Proof.Machine

def exec (i : Instr) (s : State) : Host.Outcome State Fault Refusal :=
  match i with
  | .mix a b => Sys2Proof.Machine.execMix a b s
  | .init seed => Sys2Proof.Machine.execInit seed s
  | .twist => Sys2Proof.Machine.execTwist s
  | .next => Sys2Proof.Machine.execNext s
  | .temper y => Sys2Proof.Machine.execTemper y s
  | .new seed => Sys2Proof.Machine.execNew seed s

end Sys2Proof.Machine
end

