-- ==== Sys2Proof/Machine/Port.lean ====
section
/-! DEFINITION. The command and response ports (30_encoding.md R53, R54; 70_reset_and_hazards.md R111): what the engine
does with the host's next transaction. -/

namespace Sys2Proof.Machine

/-- An accepted command word (R50, R101): decode first; a reserved opcode is answered `ERR_ILLEGAL` and nothing else is
looked at (R45, R97). -/
def runCommand (w : CommandWord) (s : State) : Host.Outcome State Fault Refusal :=
  match decode w with
  | .ok i => exec i s
  | .error _ => .next (raise .illegal s)

/-- `cmd_ready`: the engine accepts a command when it holds no response (R54). -/
def ready (s : State) : Bool := s.response.isNone

/-- One transaction at the ports.

With nothing presented the engine holds its state (60_exceptions.md R110). A command presented while a response is
pending is not accepted and stays presented (R54). Taking a response empties the port, and with none pending does
nothing (notes/assumptions/6.md). -/
def serve (s : State) : Host.Outcome State Fault Refusal :=
  match s.inputs with
  | [] => .next s
  | .command w :: rest => if ready s then runCommand w { s with inputs := rest } else .next s
  | .takeResponse :: rest => .next { s with inputs := rest, response := none }
  | .entropy e :: rest => .next { s with inputs := rest, entropy := e }
  | .reset :: rest => .next (resetBlock { s with inputs := rest })

/-- The state with a command word as the host's next transaction and the response port free to accept it. -/
def presentCommand (w : CommandWord) (s : State) : State :=
  { s with inputs := .command w :: s.inputs, response := none }

/-- The transactions of a host that runs a list of commands, taking each response before it presents the next (R14,
R54). -/
def hostProgram (cs : List Instr) : List HostInput :=
  cs.flatMap fun c => [.command (encode c), .takeResponse]

end Sys2Proof.Machine
end

