-- ==== Sys2Proof/Machine/Step.lean ====
section
/-! DEFINITION. The step (00_scope.md R7): one transaction of the host, and with an accepted command the whole of that
command. -/

namespace Sys2Proof.Machine

/-- One step. -/
def step (s : State) : Host.Outcome State Fault Refusal := serve s

/-- The state whose next step runs the given command word: the host presents it next, and the response port is free
(notes/assumptions/5.md). A number that is no 68-bit word changes nothing. -/
def State.withFetchWord (s : State) (nbits w : Nat) : State :=
  match commandWordOfNat nbits w with
  | some c => presentCommand c s
  | none => s

end Sys2Proof.Machine
end

