-- ==== Sys2Proof/Machine/Assembler.lean ====
section
/-! DEFINITION. The assembler's text form (30_encoding.md R51, R52). It is notation for the host; no step reads it. What
R51 leaves open of the text is in notes/assumptions/13.md. -/

namespace Sys2Proof.Machine

/-- The value of a digit in a base of 10 or 16 (R51). -/
def digitValue (base : Nat) (c : Char) : Option Nat :=
  let v :=
    if '0' ≤ c ∧ c ≤ '9' then c.toNat - 48
    else if 'A' ≤ c ∧ c ≤ 'F' then c.toNat - 55
    else if 'a' ≤ c ∧ c ≤ 'f' then c.toNat - 87
    else 16
  if v < base then some v else none

/-- The rest of a number after its first digit; `_` stands between two digits only (R51). -/
def digitsFrom (base : Nat) : Nat → List Char → Option Nat
  | acc, [] => some acc
  | acc, '_' :: c :: cs =>
    match digitValue base c with
    | some d => digitsFrom base (acc * base + d) cs
    | none => none
  | acc, c :: cs =>
    match digitValue base c with
    | some d => digitsFrom base (acc * base + d) cs
    | none => none

/-- Digits in a base, the first one a digit. -/
def digitsIn (base : Nat) : List Char → Option Nat
  | [] => none
  | c :: cs =>
    match digitValue base c with
    | some d => digitsFrom base d cs
    | none => none

/-- An operand: decimal, or hexadecimal after `0x` (R51). -/
def operandOfText : List Char → Option Nat
  | '0' :: 'x' :: cs => digitsIn 16 cs
  | cs => digitsIn 10 cs

/-- Spaces and tabs. -/
def isBlank (c : Char) : Bool := c == ' ' || c == '\t'

/-- A text without the blanks at its two ends. -/
def trimBlanks (cs : List Char) : List Char := ((cs.dropWhile isBlank).reverse.dropWhile isBlank).reverse

/-- The pieces of a text between separators. -/
def piecesAt (sep : Char) : List Char → List (List Char)
  | [] => [[]]
  | c :: cs =>
    match piecesAt sep cs with
    | [] => [[c]]
    | p :: ps => if c = sep then [] :: p :: ps else (c :: p) :: ps

/-- The mnemonic a word of text names, in upper case (R51). -/
def mnemonicOfText (cs : List Char) : Option Mnemonic :=
  if cs = "MIX".toList then some .mix
  else if cs = "INIT".toList then some .init
  else if cs = "TWIST".toList then some .twist
  else if cs = "NEXT".toList then some .next
  else if cs = "TEMPER".toList then some .temper
  else if cs = "NEW".toList then some .new
  else none

/-- The operands after a mnemonic, separated by commas (R51). -/
def operandsOfText (cs : List Char) : Option (List Nat) :=
  if trimBlanks cs = [] then some []
  else (piecesAt ',' cs).mapM fun piece => operandOfText (trimBlanks piece)

/-- The command a checked line stands for; `NEW` with no operand is `NEW 0` (R51, R52). -/
def instrOfLine (l : AsmLine) : Except AsmError Instr :=
  if l.operands.all (· < 2 ^ 32) then
    match l.mnemonic, l.operands with
    | .mix, [a, b]  => .ok (.mix (BitVec.ofNat 32 a) (BitVec.ofNat 32 b))
    | .init, [s]    => .ok (.init (BitVec.ofNat 32 s))
    | .twist, []    => .ok .twist
    | .next, []     => .ok .next
    | .temper, [y]  => .ok (.temper (BitVec.ofNat 32 y))
    | .new, [s]     => .ok (.new (BitVec.ofNat 32 s))
    | .new, []      => .ok (.new 0)
    | _, _          => .error .operandCount
  else .error .operandRange

/-- The canonical line of a command (R51). -/
def lineOfInstr : Instr → AsmLine
  | .mix a b  => ⟨.mix, [a.toNat, b.toNat]⟩
  | .init s   => ⟨.init, [s.toNat]⟩
  | .twist    => ⟨.twist, []⟩
  | .next     => ⟨.next, []⟩
  | .temper y => ⟨.temper, [y.toNat]⟩
  | .new s    => ⟨.new, [s.toNat]⟩

/-- One line of text (R51): `#` starts a comment to the end of the line; a line with nothing else is no command. -/
def assembleLine (text : List Char) : Except AsmError (Option Instr) :=
  let body := trimBlanks (text.takeWhile (· ≠ '#'))
  if body = [] then .ok none
  else
    match mnemonicOfText (body.takeWhile (!isBlank ·)) with
    | none => .error .unknownMnemonic
    | some m =>
      match operandsOfText (body.dropWhile (!isBlank ·)) with
      | none => .error .malformedOperand
      | some ops =>
        match instrOfLine ⟨m, ops⟩ with
        | .ok i => .ok (some i)
        | .error e => .error e

/-- The commands of a list of lines, in order; the first line that is no command ends it. -/
def assembleLines : List (List Char) → Except AsmError (List Instr)
  | [] => .ok []
  | l :: ls =>
    match assembleLine l, assembleLines ls with
    | .error e, _ => .error e
    | .ok _, .error e => .error e
    | .ok none, .ok is => .ok is
    | .ok (some i), .ok is => .ok (i :: is)

/-- A whole command list, one command a line (R51). -/
def assemble (text : String) : Except AsmError (List Instr) := assembleLines (piecesAt '\n' text.toList)

end Sys2Proof.Machine
end

