-- ==== Sys2Proof/Safety.lean ====
section
/-! DEFINITION. What claims speak of: the invariant of 10_state.md R17, the states a host can reach, and a run of
commands as the host sees it (30_encoding.md R54). -/

namespace Sys2Proof.Machine

/-- `MT` is in canonical form (notes/assumptions/2.md), and "whenever `SEEDED = 1`", every word of it holds a value (R17).
That `IDX` is in [0, 624] is its type (R16). -/
def State.Inv (s : State) : Prop :=
  s.mt.wf ∧ (s.seeded = true → ∀ i : Nat, i < 624 → (s.mt.read i).isSome)

/-- The words of `MT` are `x 0` to `x 623`. -/
def State.Holds (s : State) (x : Nat → Word) : Prop := ∀ i : Nat, i < 624 → s.mt.read i = some (x i)

/-- The host presents the command word `w` and the engine is ready to accept it (R54). -/
def State.Presents (s : State) (w : CommandWord) (rest : List HostInput) : Prop :=
  s.response = none ∧ s.inputs = .command w :: rest

/-- `f(u, l)` of 42_engine.md R75, in the spec's own numbers and apart from the engine's definitions. -/
def recurrenceF (u l : Word) : Word :=
  let y := (u &&& 0x80000000#32) ||| (l &&& 0x7FFFFFFF#32)
  (y >>> 1) ^^^ (if y.getLsbD 0 then 0x9908B0DF#32 else 0#32)

/-- The words of the array a seed expands to (42_engine.md R67), in the spec's own numbers. -/
def SeedWords (seed : Word) (x : Nat → Word) : Prop :=
  x 0 = seed ∧ ∀ i : Nat, i < 623 → x (i + 1) = 1812433253#32 * (x i ^^^ (x i >>> 30)) + BitVec.ofNat 32 (i + 1)

/-- `x'` is the array one twist makes of `x`, word by word: the closed form of 42_engine.md R75, which says of each read
whether it sees a word from before the twist or one this same twist wrote (R73). -/
def TwistWords (x x' : Nat → Word) : Prop :=
  (∀ i : Nat, i ≤ 226 → x' i = x (i + 397) ^^^ recurrenceF (x i) (x (i + 1))) ∧
  (∀ i : Nat, 227 ≤ i → i ≤ 622 → x' i = x' (i - 227) ^^^ recurrenceF (x i) (x (i + 1))) ∧
  x' 623 = x' 396 ^^^ recurrenceF (x 623) (x' 0)

/-- The responses of a list of commands, run one after another, and the state after them: what a host that takes each
response before it presents the next command sees (30_encoding.md R54). None when a command stops. -/
def commandsRun : List Instr → State → Option (List Response × State)
  | [], s => some ([], s)
  | c :: cs, s =>
    match exec c s with
    | .fault _ => none
    | .refused _ => none
    | .next t =>
      match t.response, commandsRun cs { t with response := none } with
      | some r, some (rs, u) => some (r :: rs, u)
      | _, _ => none

/-- The state after `n` NEXT commands, one after another. -/
def nextRun : Nat → State → Option State
  | 0, s => some s
  | n + 1, s =>
    match nextRun n s with
    | none => none
    | some t =>
      match exec .next t with
      | .next t' => some t'
      | .fault _ => none
      | .refused _ => none

/-- Whether a NEXT command issued in this state twists (R79, R119). -/
def twistDue (s : State) : Bool := s.seeded && decide (s.idx.val = 624)

/-- How many of the first `n` NEXT commands twist: the count R81 speaks of, which the hardware does not keep. -/
def twistsWithin : Nat → State → Nat
  | 0, _ => 0
  | n + 1, s =>
    match nextRun n s with
    | none => twistsWithin n s
    | some t => twistsWithin n s + (twistDue t).toNat

end Sys2Proof.Machine
end

