-- ==== Sys2Proof/Certificates/Slice0/Obligations.lean ====
section
/-! DEFINITION. The statements for the provers. Each docstring names the rules of spec/ the statement rests on. -/

open Sys2Proof Sys2Proof.Machine

/-! ## Encoding -/

/-- Command words written out from the encoding of 30_encoding.md R41, R42 (95_test_vectors.md section 2.1, V-ENC-1 to
V-ENC-14) decode to the commands they stand for, and the reserved ones to none. -/
def Obligations.WrittenOutWordsDecode : Prop :=
  decode 0x1123456789ABCDEF0 = .ok (.mix 0x12345678 0x9ABCDEF0) ∧
  decode 0x2012BD6AADEADBEEF = .ok (.init 19650218) ∧
  decode 0x3FFFFFFFFFFFFFFFF = .ok .twist ∧
  decode 0x40000000100000000 = .ok .next ∧
  decode 0x51234567800000000 = .ok (.temper 0x12345678) ∧
  decode 0x60000157100000000 = .ok (.new 5489) ∧
  decode 0x60000000000001571 = .ok (.new 0) ∧
  decode 0x00000000000000000 = .error (.reservedOpcode 0x0) ∧
  decode 0x70000000000000000 = .error (.reservedOpcode 0x7) ∧
  decode 0xFFFFFFFFFFFFFFFFF = .error (.reservedOpcode 0xF)

/-- 30_encoding.md R50: the decode procedure on every word `{op, a, b}`, the encoder on every command, decoding an
encoded command gives it back, and encoding a decoded word gives the word back exactly when it is canonical; the decoded
command and the state decide the response and the next state. -/
def Obligations.DecodeAndEncodeAgree : Prop :=
  (∀ (op : BitVec 4) (a b : Word), decode (op ++ a ++ b) =
    if op = 0x1 then .ok (.mix a b)
    else if op = 0x2 then .ok (.init a)
    else if op = 0x3 then .ok .twist
    else if op = 0x4 then .ok .next
    else if op = 0x5 then .ok (.temper a)
    else if op = 0x6 then .ok (.new a)
    else .error (.reservedOpcode op)) ∧
  (∀ a b : Word, encode (.mix a b) = 0x1#4 ++ a ++ b) ∧
  (∀ s : Word, encode (.init s) = 0x2#4 ++ s ++ 0#32) ∧
  encode .twist = 0x3#4 ++ 0#32 ++ 0#32 ∧
  encode .next = 0x4#4 ++ 0#32 ++ 0#32 ∧
  (∀ y : Word, encode (.temper y) = 0x5#4 ++ y ++ 0#32) ∧
  (∀ s : Word, encode (.new s) = 0x6#4 ++ s ++ 0#32) ∧
  (∀ i : Instr, decode (encode i) = .ok i) ∧
  (∀ (w : CommandWord) (i : Instr), decode w = .ok i → (encode i = w ↔ w.canonical = true)) ∧
  (∀ (w : CommandWord) (s : State), runCommand w s =
    match decode w with
    | .ok i => exec i s
    | .error _ => .next { s with response := some ⟨.err .illegal, 0⟩ })

/-- 30_encoding.md R55: the decoder written from the opcode table alone reads every word as the decoder does. -/
def Obligations.TableDecoderAgrees : Prop :=
  ∀ w : CommandWord, decodeByTable w =
    match decode w with
    | .ok i => some i
    | .error _ => none

/-- 30_encoding.md R44: a field its command does not use may hold any value and has no effect on state or response, and
the word an assembler writes has zero there. -/
def Obligations.IgnoredFieldsHaveNoEffect : Prop :=
  (∀ (op : BitVec 4) (a b b' : Word) (s : State), op = 0x2 ∨ op = 0x5 ∨ op = 0x6 →
    runCommand (op ++ a ++ b) s = runCommand (op ++ a ++ b') s) ∧
  (∀ (op : BitVec 4) (a a' b b' : Word) (s : State), op = 0x3 ∨ op = 0x4 →
    runCommand (op ++ a ++ b) s = runCommand (op ++ a' ++ b') s) ∧
  (∀ i : Instr, (encode i).canonical = true)

/-- 30_encoding.md R46, R47: `STATUS` in bits 33:32 with the four codes, `DATA` in bits 31:0, and a host reads back from
the response word the response it stands for. -/
def Obligations.ResponseWordLayout : Prop :=
  (∀ r : Response, r.toWord.extractLsb' 32 2 = r.status.code ∧ r.toWord.extractLsb' 0 32 = r.data ∧
    responseOfWord r.toWord = r) ∧
  Status.code .ok = 0 ∧ Status.code (.err .entropy) = 1 ∧ Status.code (.err .unseeded) = 2 ∧
  Status.code (.err .illegal) = 3

/-- 30_encoding.md R52: `NEW` written with no operand is `NEW 0`; with the example lines of R51, and every command read
back from its own line. -/
def Obligations.AssemblerReadsCommands : Prop :=
  assembleLine "NEW".toList = .ok (some (.new 0)) ∧
  encode (.new 0) = 0x60000000000000000 ∧
  assembleLine "MIX 0x12345678, 0x9ABCDEF0".toList = .ok (some (.mix 0x12345678 0x9ABCDEF0)) ∧
  assembleLine "INIT 1_812_433_253 # the multiplier".toList = .ok (some (.init 0x6C078965)) ∧
  (∀ i : Instr, (lineOfInstr i).wellFormed = true ∧ instrOfLine (lineOfInstr i) = .ok i) ∧
  (∀ l : AsmLine, l.wellFormed = true ↔ ∃ i : Instr, instrOfLine l = .ok i)

/-! ## Operands and memory -/

/-- 20_memory.md R33: the bytes of a word are visited least significant first. -/
def Obligations.BytesLeastSignificantFirst : Prop :=
  (∀ v : Word, bytesOf v = [v.extractLsb' 0 8, v.extractLsb' 8 8, v.extractLsb' 16 8, v.extractLsb' 24 8]) ∧
  bytesOf 0x12345678 = [0x78, 0x56, 0x34, 0x12]

/-- 20_memory.md R30: a read returns the value most recently written to its word, the whole of it; a write leaves every
other word as it was. -/
def Obligations.ReadsReturnTheLastWrite : Prop :=
  (∀ (m : Memory) (i : Fin 624) (v : Word), memRead (memWrite m i v) i = .ok v) ∧
  (∀ (m : Memory) (i j : Fin 624) (v : Word), i ≠ j → memRead (memWrite m i v) j = memRead m j)

/-- 20_memory.md R31: the two address forms of the twist that wrap, and that the address of a loop counter is itself. -/
def Obligations.ArrayAddressForms : Prop :=
  (∀ k : Nat, k < 624 → (wordAddr k).val = k) ∧
  (∀ i : Fin 624, (i.val ≤ 622 → (nextAddr i).val = i.val + 1) ∧ (i.val = 623 → (nextAddr i).val = 0)) ∧
  (∀ i : Fin 624, (i.val ≤ 226 → (middleAddr i).val = i.val + 397) ∧
    (227 ≤ i.val → (middleAddr i).val = i.val - 227))

/-! ## Reset, ports, the step -/

/-- The state after reset: `SEEDED` and `IDX` of 10_state.md R26, the empty response port of 70_reset_and_hazards.md R112.
That a read of a word then faults is the model's way of saying "unspecified" (notes/assumptions/1.md). -/
def Obligations.ResetState : Prop :=
  State.reset.seeded = false ∧ State.reset.idx.val = 624 ∧ State.reset.response = none ∧
  (∀ i : Fin 624, memRead State.reset.mt i = .error (.valuelessWord i))

/-- 70_reset_and_hazards.md R111: asserting `rst` puts the block in its reset state and makes it idle, from every state
and whatever is pending; only it clears `SEEDED`. That the host's side stays is the model's (notes/assumptions/7.md). -/
def Obligations.OnlyResetClearsSeeded : Prop :=
  (∀ (s : State) (rest : List HostInput), s.inputs = .reset :: rest →
    step s = .next { State.reset with entropy := s.entropy, inputs := rest, params := s.params }) ∧
  (∀ s t : State, step s = .next t → s.seeded = true → t.seeded = false →
    ∃ rest, s.inputs = .reset :: rest)

/-- 10_state.md R18: `SEEDED` is set only by an INIT or a successful NEW, and by each of them. -/
def Obligations.OnlyConstructionSetsSeeded : Prop :=
  (∀ s t : State, step s = .next t → s.seeded = false → t.seeded = true →
    ∃ w rest a, s.Presents w rest ∧ (decode w = .ok (.init a) ∨ decode w = .ok (.new a)) ∧
      t.response = some ⟨.ok, 0⟩) ∧
  (∀ (s t : State) (a : Word), exec (.init a) s = .next t → t.seeded = true) ∧
  (∀ (s t : State) (a : Word), exec (.new a) s = .next t → t.response = some ⟨.ok, 0⟩ → t.seeded = true)

/-- 70_reset_and_hazards.md R112: the unspecified words of `MT` cannot be observed. While no generator exists, whatever
the array holds, every command gives the same response, cursor and flag, and if it constructs a generator, the same
words. -/
def Obligations.UnspecifiedWordsUnobservable : Prop :=
  ∀ (i : Instr) (s : State) (m : Memory), s.seeded = false →
    ∃ t t', exec i s = .next t ∧ exec i { s with mt := m } = .next t' ∧
      t'.response = t.response ∧ t'.idx = t.idx ∧ t'.seeded = t.seeded ∧
      (t.seeded = true → ∀ a : Nat, a < 624 → t'.mt.read a = t.mt.read a)

/-- 30_encoding.md R54, 00_scope.md R7: when the engine is ready and the host presents a word that decodes to a command,
the step is that command, run on the state with the word taken from the port. -/
def Obligations.StepRunsTheDecodedCommand : Prop :=
  ∀ (s : State) (w : CommandWord) (rest : List HostInput) (i : Instr),
    s.Presents w rest → decode w = .ok i → step s = exec i { s with inputs := rest }

/-- 30_encoding.md R54 and 60_exceptions.md R110, with the model's reading of the ports (notes/assumptions/6.md): with
nothing presented the engine holds its state; with a response pending it accepts no command; taking the response empties
the port; a change of the entropy inputs changes those only. -/
def Obligations.PortTransactions : Prop :=
  (∀ s : State, s.inputs = [] → step s = .next s) ∧
  (∀ (s : State) (w : CommandWord) (rest : List HostInput) (r : Response),
    s.inputs = .command w :: rest → s.response = some r → step s = .next s) ∧
  (∀ (s : State) (rest : List HostInput), s.inputs = .takeResponse :: rest →
    step s = .next { s with inputs := rest, response := none }) ∧
  (∀ (s : State) (rest : List HostInput) (e : Entropy), s.inputs = .entropy e :: rest →
    step s = .next { s with inputs := rest, entropy := e })

/-! ## The invariant -/

/-- The reset state meets the model's invariant: its array is in canonical form, which is the model's choice
(notes/assumptions/2.md). Since `SEEDED` = 0, 10_state.md R17 asks nothing of its words. -/
def Obligations.ResetMeetsInvariant : Prop := State.reset.Inv

/-- 10_state.md R17: once a generator exists, every one of the 624 words holds a value; with it, as the model's choice
(notes/assumptions/2.md), the array is in canonical form. Every step from every state that meets this gives a state that
meets it. -/
def Obligations.StepKeepsInvariant : Prop :=
  ∀ s t : State, s.Inv → step s = .next t → t.Inv

/-- 42_engine.md R83 and 70_reset_and_hazards.md R124: from a state that meets the invariant no step stops, whatever the
host does; and an accepted command word always gets its response in that very step. -/
def Obligations.InvariantStatesNeverStop : Prop :=
  (∀ s : State, s.Inv → ∃ t, step s = .next t) ∧
  (∀ (s : State) (w : CommandWord) (rest : List HostInput), s.Inv → s.Presents w rest →
    ∃ t r, step s = .next t ∧ t.response = some r ∧ t.inputs = rest)

/-- 10_state.md R14, 30_encoding.md R54, with the model's reading of the ports (notes/assumptions/6.md): a host that runs
a list of commands, taking each response before it presents the next command, gets the responses of those commands run one
after another, in order and one each, whatever it does afterwards. -/
def Obligations.HostProgramRunsInOrder : Prop :=
  ∀ (cs : List Instr) (s : State) (rest : List HostInput), s.Inv → s.response = none →
    s.inputs = hostProgram cs ++ rest →
    ∃ (rs : List Response) (t : State), commandsRun cs { s with inputs := rest } = some (rs, t) ∧
      rs.length = cs.length ∧ core.run (2 * cs.length) s = .next t ∧
      ∀ k : Nat, k < cs.length → ∃ u, core.run (2 * k + 1) s = .next u ∧ u.response = rs[k]?

/-! ## Errors -/

/-- 60_exceptions.md R94: a command that responds with an error has `DATA` = 0 and leaves `MT`, `IDX` and `SEEDED` as
they were, and the rest of the state too; and no command depends on the response before it, so an error leaves nothing
sticky. -/
def Obligations.ErrorsChangeNothing : Prop :=
  (∀ (s t : State) (w : CommandWord) (e : ErrorCause) (d : Word),
    runCommand w s = .next t → t.response = some ⟨.err e, d⟩ →
      d = 0 ∧ t = { s with response := some ⟨.err e, 0⟩ }) ∧
  (∀ (s : State) (w : CommandWord) (r : Option Response), runCommand w { s with response := r } = runCommand w s)

/-- 60_exceptions.md R96: NEXT and TWIST answer `ERR_UNSEEDED` while `SEEDED` = 0, changing nothing; no other command
ever does, nor these once a generator exists; and a generator, once there, stays until a reset. -/
def Obligations.UnseededRefusal : Prop :=
  (∀ s : State, s.seeded = false →
    exec .next s = .next { s with response := some ⟨.err .unseeded, 0⟩ } ∧
    exec .twist s = .next { s with response := some ⟨.err .unseeded, 0⟩ }) ∧
  (∀ (w : CommandWord) (s t : State) (d : Word), runCommand w s = .next t →
    t.response = some ⟨.err .unseeded, d⟩ → s.seeded = false ∧ (decode w = .ok .next ∨ decode w = .ok .twist)) ∧
  (∀ s t : State, step s = .next t → s.seeded = true → (∀ rest, s.inputs ≠ .reset :: rest) → t.seeded = true)

/-- 60_exceptions.md R97: every word with a reserved `OP` is answered `ERR_ILLEGAL`, whatever `A`, `B` and the state, and
changes nothing; no legal command word is. -/
def Obligations.ReservedOpcodesAreIllegal : Prop :=
  (∀ (op : BitVec 4) (a b : Word) (s : State), (op = 0x0 ∨ 0x7 ≤ op.toNat) →
    runCommand (op ++ a ++ b) s = .next { s with response := some ⟨.err .illegal, 0⟩ }) ∧
  (∀ (op : BitVec 4) (a b d : Word) (s t : State), 0x1 ≤ op.toNat → op.toNat ≤ 0x6 →
    runCommand (op ++ a ++ b) s = .next t → t.response ≠ some ⟨.err .illegal, d⟩)

/-- 43_construction.md R90, 60_exceptions.md R95: `NEW 0` without the hardware sample answers `ERR_ENTROPY` and writes
nothing; nothing else answers it. -/
def Obligations.EntropyFailure : Prop :=
  (∀ s : State, s.entropy.hwOk = false →
    exec (.new 0) s = .next { s with response := some ⟨.err .entropy, 0⟩ }) ∧
  (∀ (w : CommandWord) (s t : State) (d : Word), runCommand w s = .next t →
    t.response = some ⟨.err .entropy, d⟩ → decode w = .ok (.new 0) ∧ s.entropy.hwOk = false)

/-- 60_exceptions.md R98, R101: the complete table of outcomes. From a state that meets the invariant a presented command
word is answered in one step, and each error is answered exactly in its one case. -/
def Obligations.CompleteTableOfOutcomes : Prop :=
  ∀ (s : State) (op : BitVec 4) (a b : Word) (rest : List HostInput), s.Inv → s.Presents (op ++ a ++ b) rest →
    ∃ t r, step s = .next t ∧ t.response = some r ∧
      (r.status = .err .illegal ↔ (op = 0x0 ∨ 0x7 ≤ op.toNat)) ∧
      (r.status = .err .unseeded ↔ ((op = 0x3 ∨ op = 0x4) ∧ s.seeded = false)) ∧
      (r.status = .err .entropy ↔ (op = 0x6 ∧ a = 0 ∧ s.entropy.hwOk = false)) ∧
      (r.status ≠ .ok → r.data = 0)

/-! ## MIX and the seed derivation -/

/-- 41_seed_mixer.md R58, R59: MIX responds, in every state, with the running hash over a0 a1 a2 a3 b0 b1 b2 b3 a0 a1 a2
a3 b0 b1 b2 b3, and touches nothing else; with the values R59 gives for the parameters 0x811C9DC5 and 0x01000193. -/
def Obligations.MixRespondsWithTheHash : Prop :=
  (∀ (a b : Word) (s : State), exec (.mix a b) s =
    .next { s with response := some ⟨.ok,
      [a.extractLsb' 0 8, a.extractLsb' 8 8, a.extractLsb' 16 8, a.extractLsb' 24 8,
       b.extractLsb' 0 8, b.extractLsb' 8 8, b.extractLsb' 16 8, b.extractLsb' 24 8,
       a.extractLsb' 0 8, a.extractLsb' 8 8, a.extractLsb' 16 8, a.extractLsb' 24 8,
       b.extractLsb' 0 8, b.extractLsb' 8 8, b.extractLsb' 16 8, b.extractLsb' 24 8].foldl
        (fun h x => (h ^^^ x.zeroExtend 32) * s.params.prime) s.params.offsetBasis⟩ }) ∧
  (∀ s : State, s.params = ⟨0x811C9DC5, 0x01000193⟩ →
    exec (.mix 0x12345678 0x9ABCDEF0) s = .next { s with response := some ⟨.ok, 0x98966965⟩ } ∧
    exec (.mix 0 0) s = .next { s with response := some ⟨.ok, 0x69691905⟩ } ∧
    exec (.mix 1 2) s = .next { s with response := some ⟨.ok, 0x992F5825⟩ } ∧
    exec (.mix 2 1) s = .next { s with response := some ⟨.ok, 0x93FD2E25⟩ })

/-- 41_seed_mixer.md R61, R63, 43_construction.md R89: with the hardware sample there, `NEW 0` does exactly what `INIT d`
does for the derived seed `d`, zero included. -/
def Obligations.AutoSeedIsInitOfTheDerivedSeed : Prop :=
  ∀ s : State, s.entropy.hwOk = true →
    ∃ t, exec (.new 0) s = .next t ∧
      exec (.init (mix s.params (s.entropy.hw + s.entropy.wall)
        (mix s.params (s.entropy.hw + s.entropy.wall) s.entropy.cyc))) s = .next t ∧
      t.response = some ⟨.ok, 0⟩ ∧ t.seeded = true ∧ t.idx.val = 624

/-- 41_seed_mixer.md R62, R64: the derived seed depends on the performance counter not at all, and on the hardware sample
and the wall clock through their sum only; so does everything a NEW does. With the worked example of R64. -/
def Obligations.DerivedSeedDependsOnSumAndCycles : Prop :=
  (∀ (p : MixParams) (e e' : Entropy), e.hw + e.wall = e'.hw + e'.wall → e.cyc = e'.cyc →
    deriveSeed p e = deriveSeed p e') ∧
  (∀ (a : Word) (s : State) (e e' : Entropy), e.hwOk = e'.hwOk → e.hw + e.wall = e'.hw + e'.wall → e.cyc = e'.cyc →
    ∃ t, exec (.new a) { s with entropy := e } = .next t ∧
      exec (.new a) { s with entropy := e' } = .next { t with entropy := e' }) ∧
  (∀ (ok : Bool) (perf : Word),
    deriveSeed ⟨0x811C9DC5, 0x01000193⟩ ⟨0xDEADBEEF, ok, 0x5F3759DF, perf, 0x0BADF00D⟩ = 0x8F9943C5)

/-- 41_seed_mixer.md R56: the entropy inputs are read by a NEW whose operand is 0 and by no other command, and then the
hardware sample only if it is there. -/
def Obligations.EntropyIsReadByAutoSeedOnly : Prop :=
  (∀ (i : Instr) (s t : State) (e : Entropy), i ≠ .new 0 → exec i s = .next t →
    exec i { s with entropy := e } = .next { t with entropy := e }) ∧
  (∀ (s : State) (e : Entropy), s.entropy.hwOk = false → e.hwOk = false →
    ∃ t, exec (.new 0) s = .next t ∧ exec (.new 0) { s with entropy := e } = .next { t with entropy := e })

/-! ## INIT and NEW -/

/-- 42_engine.md R67, R68: INIT succeeds in every state, leaves the words of the recurrence, `IDX` = 624 and `SEEDED` = 1,
responds with no data, and changes nothing else. -/
def Obligations.InitExpandsTheSeed : Prop :=
  ∀ (seed : Word) (s : State), ∃ (t : State) (x : Nat → Word), exec (.init seed) s = .next t ∧
    x 0 = seed ∧
    (∀ i : Nat, i < 623 →
      x (i + 1) = 1812433253#32 * (x i ^^^ (x i >>> 30)) + BitVec.ofNat 32 (i + 1)) ∧
    (∀ i : Fin 624, memRead t.mt i = .ok (x i.val)) ∧
    t.idx.val = 624 ∧ t.seeded = true ∧ t.response = some ⟨.ok, 0⟩ ∧
    t.entropy = s.entropy ∧ t.inputs = s.inputs ∧ t.params = s.params ∧
    (∀ a : Nat, 624 ≤ a → t.mt.read a = s.mt.read a)

/-- 42_engine.md R69 and the worked example of R68: the first words of the seeds 0, 0xFFFFFFFF and 19650218. -/
def Obligations.InitCornerCases : Prop :=
  ∀ s : State,
    (∃ t, exec (.init 0) s = .next t ∧ t.mt.read 0 = some 0 ∧ t.mt.read 1 = some 1 ∧
      t.mt.read 2 = some 0x6C078967) ∧
    (∃ t, exec (.init 0xFFFFFFFF) s = .next t ∧ t.mt.read 0 = some 0xFFFFFFFF ∧ t.mt.read 1 = some 0x4FE1DA6D) ∧
    (∃ t, exec (.init 19650218) s = .next t ∧ t.mt.read 0 = some 0x012BD6AA ∧ t.mt.read 1 = some 0x82D2AB13)

/-- 10_state.md R27, 41_seed_mixer.md R66: a successful construction forgets the earlier generator. From any two states
whose arrays are in canonical form (notes/assumptions/2.md), the same INIT, or the same NEW with the same entropy inputs, leaves equal states. -/
def Obligations.ConstructionForgetsThePast : Prop :=
  ∀ (a : Word) (s s' : State), s.mt.wf → s'.mt.wf →
    s'.entropy = s.entropy → s'.inputs = s.inputs → s'.params = s.params →
    exec (.init a) s' = exec (.init a) s ∧
    (a ≠ 0 ∨ s.entropy.hwOk = true → exec (.new a) s' = exec (.new a) s)

/-- 43_construction.md R88: NEW with an operand other than 0 never fails and is INIT of that operand, whatever the entropy
inputs hold. -/
def Obligations.ExplicitNewIsInit : Prop :=
  ∀ (a : Word) (s : State) (e : Entropy), a ≠ 0 →
    ∃ t, exec (.new a) { s with entropy := e } = .next t ∧ exec (.init a) { s with entropy := e } = .next t ∧
      t.response = some ⟨.ok, 0⟩ ∧ t.seeded = true ∧ t.idx.val = 624

/-! ## TWIST -/

/-- 42_engine.md R70: one iteration of a twist on the array as it stands reads three words, writes the one word, and the
bits `u[30:0]` and `l[31]` do not influence it. -/
def Obligations.TwistIteration : Prop :=
  (∀ (i : Fin 624) (m : Memory) (u l w : Word), memRead m i = .ok u →
    memRead m ⟨(i.val + 1) % 624, Nat.mod_lt _ (by decide)⟩ = .ok l →
    memRead m ⟨(i.val + 397) % 624, Nat.mod_lt _ (by decide)⟩ = .ok w →
    ∃ m', twistStep i m = .ok m' ∧
      memRead m' i = .ok (w ^^^ (((u &&& 0x80000000#32) ||| (l &&& 0x7FFFFFFF#32)) >>> 1) ^^^
        (if ((u &&& 0x80000000#32) ||| (l &&& 0x7FFFFFFF#32)).getLsbD 0 then 0x9908B0DF#32 else 0#32)) ∧
      ∀ j : Nat, j ≠ i.val → m'.read j = m.read j) ∧
  (∀ u u' l l' w : Word, u.getLsbD 31 = u'.getLsbD 31 → (∀ k : Nat, k < 31 → l.getLsbD k = l'.getLsbD k) →
    twistWord u l w = twistWord u' l' w)

/-- 42_engine.md R71, R73: on a constructed engine whose array holds `x`, TWIST completes and leaves the words of the
in-place, ascending pass: which of its reads see words this same pass rewrote is said index by index. `IDX` becomes 0, the
response carries no data, and nothing else changes. -/
def Obligations.TwistIsTheInPlacePass : Prop :=
  ∀ (s : State) (x : Nat → Word), s.seeded = true → s.Holds x →
    ∃ (t : State) (x' : Nat → Word), exec .twist s = .next t ∧ t.Holds x' ∧
      (∀ i : Nat, i ≤ 226 → x' i = x (i + 397) ^^^ recurrenceF (x i) (x (i + 1))) ∧
      (∀ i : Nat, 227 ≤ i → i ≤ 622 → x' i = x' (i - 227) ^^^ recurrenceF (x i) (x (i + 1))) ∧
      x' 623 = x' 396 ^^^ recurrenceF (x 623) (x' 0) ∧
      t.idx.val = 0 ∧ t.seeded = true ∧ t.response = some ⟨.ok, 0⟩ ∧
      t.entropy = s.entropy ∧ t.inputs = s.inputs ∧ t.params = s.params ∧
      (∀ a : Nat, 624 ≤ a → t.mt.read a = s.mt.read a)

/-- 42_engine.md R72: `IDX` before a TWIST has no influence, and a twist of an array of zeros (95_test_vectors.md V-TW-5)
leaves zeros. -/
def Obligations.TwistIgnoresTheCursor : Prop :=
  (∀ (s : State) (k : Fin 625), s.seeded = true → exec .twist { s with idx := k } = exec .twist s) ∧
  (∀ s : State, s.seeded = true → s.Holds (fun _ => 0) → ∃ t, exec .twist s = .next t ∧ t.Holds (fun _ => 0))

/-! ## TEMPER and NEXT -/

/-- 42_engine.md R76, R77: TEMPER responds, in every state, with the four steps of the transform, and touches nothing
else; with the values R77 gives. -/
def Obligations.TemperRespondsWithTheTransform : Prop :=
  (∀ (y y1 y2 y3 : Word) (s : State), y1 = y ^^^ (y >>> 11) → y2 = y1 ^^^ ((y1 <<< 7) &&& 0x9D2C5680) →
    y3 = y2 ^^^ ((y2 <<< 15) &&& 0xEFC60000) →
    exec (.temper y) s = .next { s with response := some ⟨.ok, y3 ^^^ (y3 >>> 18)⟩ }) ∧
  temper 0 = 0 ∧ temper 0xFFFFFFFF = 0x6FE01BF8 ∧ temper 1 = 0x00400091 ∧ temper 0x80000000 = 0x88102204 ∧
  temper 0x12345678 = 0x2B7E4A2D ∧ temper (temper 1) ≠ temper 1

/-- 42_engine.md R78: `temper` keeps 0, is a bijection on 32-bit words, and is linear over XOR. -/
def Obligations.TemperIsALinearBijection : Prop :=
  temper 0 = 0 ∧ Function.Bijective temper ∧ ∀ a b : Word, temper (a ^^^ b) = temper a ^^^ temper b

/-- 42_engine.md R79, R80: NEXT refuses before construction. On a constructed engine with `IDX` < 624 it returns the
tempered word at `IDX`, moves `IDX` on by one and changes nothing else, the word included. With `IDX` = 624 it twists first,
returns the tempered word 0 of the array that leaves, and leaves `IDX` = 1. -/
def Obligations.NextReturnsTheTemperedWord : Prop :=
  (∀ s : State, s.seeded = false → exec .next s = .next { s with response := some ⟨.err .unseeded, 0⟩ }) ∧
  (∀ (s : State) (w : Word), s.seeded = true → s.idx.val < 624 → s.mt.read s.idx.val = some w →
    ∃ t, exec .next s = .next t ∧ t.idx.val = s.idx.val + 1 ∧
      t = { s with idx := t.idx, response := some ⟨.ok, temper w⟩ }) ∧
  (∀ (s : State) (x : Nat → Word), s.seeded = true → s.idx.val = 624 → s.Holds x →
    ∃ (t : State) (x' : Nat → Word), exec .next s = .next t ∧ t.Holds x' ∧ TwistWords x x' ∧
      t.response = some ⟨.ok, temper (x' 0)⟩ ∧ t.idx.val = 1 ∧ t.seeded = true ∧
      t.entropy = s.entropy ∧ t.inputs = s.inputs ∧ t.params = s.params ∧
      (∀ a : Nat, 624 ≤ a → t.mt.read a = s.mt.read a))

/-- 42_engine.md R72, 70_reset_and_hazards.md R119: on a fresh or exhausted engine a TWIST does what the NEXT would have
done first: the NEXT after it returns the same word and leaves the same state, and twists no second time. -/
def Obligations.TwistThenNextIsNext : Prop :=
  ∀ (s : State) (x : Nat → Word), s.seeded = true → s.idx.val = 624 → s.Holds x →
    ∃ t u : State, exec .twist s = .next t ∧ exec .next s = .next u ∧ exec .next t = .next u ∧ u.mt = t.mt

/-! ## Whole-machine rules -/

/-- 10_state.md R19: the transition table of `SEEDED` and `IDX`, for every command that completes. -/
def Obligations.TransitionTable : Prop :=
  ∀ (i : Instr) (s t : State), exec i s = .next t →
    match i with
    | .mix _ _ => t.idx = s.idx ∧ t.seeded = s.seeded
    | .temper _ => t.idx = s.idx ∧ t.seeded = s.seeded
    | .init _ => condition t = .freshOrExhausted
    | .new a => (if a = 0 ∧ s.entropy.hwOk = false then t.idx = s.idx ∧ t.seeded = s.seeded
        else condition t = .freshOrExhausted)
    | .twist => (if s.seeded then condition t = .running ∧ t.idx.val = 0
        else t.response = some ⟨.err .unseeded, 0⟩ ∧ t.idx = s.idx ∧ condition t = .unseeded)
    | .next => (match condition s with
        | .unseeded => t.response = some ⟨.err .unseeded, 0⟩ ∧ t.idx = s.idx ∧ condition t = .unseeded
        | .running => t.idx.val = s.idx.val + 1 ∧
            condition t = (if s.idx.val = 623 then .freshOrExhausted else .running)
        | .freshOrExhausted => t.idx.val = 1 ∧ condition t = .running)

/-- 10_state.md R25: what each command may write. The host's side of the state and every address outside the array are
written by none; MIX and TEMPER write no state; a command that answers an error writes none; NEXT writes a word of the
array only when `IDX` = 624. -/
def Obligations.WriteSets : Prop :=
  ∀ (i : Instr) (s t : State), exec i s = .next t →
    (t.entropy = s.entropy ∧ t.inputs = s.inputs ∧ t.params = s.params) ∧
    (∀ a : Nat, 624 ≤ a → t.mt.read a = s.mt.read a) ∧
    (∀ a b : Word, i = .mix a b → t = { s with response := t.response }) ∧
    (∀ y : Word, i = .temper y → t = { s with response := t.response }) ∧
    (∀ (e : ErrorCause) (d : Word), t.response = some ⟨.err e, d⟩ → t = { s with response := t.response }) ∧
    (i = .next → s.idx.val < 624 → t.mt = s.mt ∧ t.seeded = s.seeded)

/-- 00_scope.md R6, 10_state.md R24: the open parameters are no state: no step changes them. The entropy inputs change
only when the host changes them. -/
def Obligations.StepKeepsTheParameters : Prop :=
  ∀ s t : State, step s = .next t →
    t.params = s.params ∧ ((∀ e rest, s.inputs ≠ .entropy e :: rest) → t.entropy = s.entropy)

/-- 42_engine.md R82 with the unbounded sequence of R75: after `INIT seed`, or `NEW seed` with another seed than 0, from
every state, the NEXT number `n` (from 0) returns the tempered word `624 + n` of the one sequence that starts with the seed's
624 words and goes on by the recurrence. -/
def Obligations.OutputSequenceOfASeed : Prop :=
  ∀ (seed : Word) (s : State), ∃ (t : State) (x : Nat → Word), exec (.init seed) s = .next t ∧
    (seed ≠ 0 → exec (.new seed) s = .next t) ∧ SeedWords seed x ∧
    (∀ k : Nat, x (k + 624) = x (k + 397) ^^^ recurrenceF (x k) (x (k + 1))) ∧
    ∀ n : Nat, ∃ u, nextRun (n + 1) t = some u ∧ u.response = some ⟨.ok, temper (x (624 + n))⟩

/-- 42_engine.md R81: from a fresh generator, NEXT number `n` (from 1) twists exactly when `n` mod 624 = 1, and after `n`
of them ⌈n / 624⌉ have twisted and `IDX` = ((n − 1) mod 624) + 1. -/
def Obligations.PeriodStructure : Prop :=
  ∀ (s : State) (x : Nat → Word), s.seeded = true → s.idx.val = 624 → s.Holds x →
    ∀ n : Nat, 1 ≤ n →
      ∃ t u, nextRun (n - 1) s = some t ∧ nextRun n s = some u ∧
        (t.idx.val = 624 ↔ n % 624 = 1) ∧
        (n % 624 = 1 → ∃ v, exec .twist t = .next v ∧ u.mt = v.mt) ∧
        (n % 624 ≠ 1 → u.mt = t.mt) ∧
        u.idx.val = (n - 1) % 624 + 1 ∧ twistsWithin n s = (n + 623) / 624
end

