-- ==== Sys2Proof/Laws/Decode.lean ====
section
/-! SUPPORT. Fields of a packed command word, and a word from its fields. -/

namespace Sys2Proof

@[simp] theorem opcodeOf_pack (op : BitVec 4) (a b : Word) : opcodeOf (packCommand op a b) = op := by
  apply BitVec.eq_of_getLsbD_eq
  intro i hi
  simp only [opcodeOf, packCommand, BitVec.getLsbD_extractLsb', BitVec.getLsbD_append]
  simp [hi, show ¬ (64 + i < 32) by omega, show 64 + i - 32 - 32 = i by omega, show ¬ (64 + i - 32 < 32) by omega]

@[simp] theorem operandA_pack (op : BitVec 4) (a b : Word) : operandA (packCommand op a b) = a := by
  apply BitVec.eq_of_getLsbD_eq
  intro i hi
  simp only [operandA, packCommand, BitVec.getLsbD_extractLsb', BitVec.getLsbD_append]
  simp [hi, show ¬ (32 + i < 32) by omega]

@[simp] theorem operandB_pack (op : BitVec 4) (a b : Word) : operandB (packCommand op a b) = b := by
  apply BitVec.eq_of_getLsbD_eq
  intro i hi
  simp only [operandB, packCommand, BitVec.getLsbD_extractLsb', BitVec.getLsbD_append]
  simp [hi]

/-- A command word is its three fields. -/
theorem pack_fields (w : CommandWord) : packCommand (opcodeOf w) (operandA w) (operandB w) = w := by
  apply BitVec.eq_of_getLsbD_eq
  intro i hi
  simp only [opcodeOf, operandA, operandB, packCommand, BitVec.getLsbD_extractLsb', BitVec.getLsbD_append]
  rcases Nat.lt_or_ge i 32 with h | h
  · simp [h]
  · rcases Nat.lt_or_ge (i - 32) 32 with h' | h'
    · simp [show ¬ i < 32 by omega, h', show 32 + (i - 32) = i by omega]
    · simp [show ¬ i < 32 by omega, show ¬ (i - 32 < 32) by omega, show 64 + (i - 32 - 32) = i by omega,
        show i - 32 - 32 < 4 by omega]

/-- Words with the same fields are equal. -/
theorem command_ext {w w' : CommandWord} (ho : opcodeOf w = opcodeOf w') (ha : operandA w = operandA w')
    (hb : operandB w = operandB w') : w = w' := by
  rw [← pack_fields w, ← pack_fields w', ho, ha, hb]

/-- The value of a packed word, as a number. -/
theorem pack_toNat (op : BitVec 4) (a b : Word) :
    (packCommand op a b).toNat = op.toNat * 2 ^ 64 + a.toNat * 2 ^ 32 + b.toNat := by
  have ha := a.isLt
  have hb := b.isLt
  simp only [packCommand, BitVec.toNat_append]
  rw [← Nat.shiftLeft_add_eq_or_of_lt hb, ← Nat.shiftLeft_add_eq_or_of_lt ha]
  simp only [Nat.shiftLeft_eq]
  omega

/-- What decoding can answer: the six commands under their opcodes, or the reserved opcode (R50). -/
theorem decode_cases (w : CommandWord) :
    (opcodeOf w = 1 ∧ decode w = .ok (.mix (operandA w) (operandB w))) ∨
    (opcodeOf w = 2 ∧ decode w = .ok (.init (operandA w))) ∨
    (opcodeOf w = 3 ∧ decode w = .ok .twist) ∨
    (opcodeOf w = 4 ∧ decode w = .ok .next) ∨
    (opcodeOf w = 5 ∧ decode w = .ok (.temper (operandA w))) ∨
    (opcodeOf w = 6 ∧ decode w = .ok (.new (operandA w))) ∨
    ((opcodeOf w = 0 ∨ 7 ≤ (opcodeOf w).toNat) ∧ decode w = .error (.reservedOpcode (opcodeOf w))) := by
  unfold decode
  generalize opcodeOf w = op
  revert op
  generalize operandA w = a
  generalize operandB w = b
  intro op
  have h : op.toNat < 16 := op.isLt
  have key : op = BitVec.ofNat 4 op.toNat := by simp
  generalize op.toNat = n at h key
  subst key
  interval_cases n <;> simp

end Sys2Proof
end

