-- ==== Sys2Proof/Laws/Memory.lean ====
section
/-! SUPPORT. The laws of the state array: a read after a write, the canonical form kept, equal reads of canonical arrays
are equal arrays. -/

namespace Sys2Proof.Machine

@[simp] theorem Memory.read_nil (a : Nat) : Memory.read [] a = none := rfl

theorem Memory.read_cons (b : Nat) (w : Word) (m : Memory) (a : Nat) :
    Memory.read ((b, w) :: m) a = if a = b then some w else Memory.read m a := rfl

/-- What a word reads as after a write, for every address. -/
theorem Memory.read_write (m : Memory) (a b : Nat) (v : Word) :
    (m.write a v).read b = if b = a then some v else m.read b := by
  induction m with
  | nil => rfl
  | cons c m ih =>
    obtain ⟨k, w⟩ := c
    unfold Memory.write
    split
    · simp only [Memory.read_cons]
    · split
      · subst_vars; simp only [Memory.read_cons]; split <;> rfl
      · simp only [Memory.read_cons, ih]
        split_ifs <;> first | rfl | omega

@[simp] theorem Memory.read_write_same (m : Memory) (a : Nat) (v : Word) : (m.write a v).read a = some v := by
  simp [Memory.read_write]

theorem Memory.read_write_other (m : Memory) {a b : Nat} (v : Word) (h : b ≠ a) :
    (m.write a v).read b = m.read b := by
  simp [Memory.read_write, h]

/-- Every cell after a write is the written one or an old one. -/
theorem Memory.mem_write {m : Memory} {a : Nat} {v : Word} {c : Nat × Word} (h : c ∈ m.write a v) :
    c = (a, v) ∨ c ∈ m := by
  induction m with
  | nil => simpa [Memory.write] using h
  | cons d m ih =>
    obtain ⟨k, w⟩ := d
    unfold Memory.write at h
    split at h
    · simpa using h
    · split at h
      · rcases List.mem_cons.1 h with h | h
        · exact .inl h
        · exact .inr (List.mem_cons_of_mem _ h)
      · rcases List.mem_cons.1 h with h | h
        · exact .inr (by simp [h])
        · exact (ih h).imp id (List.mem_cons_of_mem _)

theorem Memory.wf_nil : Memory.wf [] := ⟨.nil, by simp⟩

/-- A write inside the array keeps the canonical form. -/
theorem Memory.wf_write {m : Memory} {a : Nat} (hm : m.wf) (ha : a < 624) (v : Word) : (m.write a v).wf := by
  obtain ⟨hp, hb⟩ := hm
  refine ⟨?_, fun c hc => ?_⟩
  · induction m with
    | nil => simp [Memory.write]
    | cons d m ih =>
      obtain ⟨k, w⟩ := d
      have hk := List.pairwise_cons.1 hp
      unfold Memory.write
      split
      next h =>
        refine List.pairwise_cons.2 ⟨fun c hc => ?_, hp⟩
        rcases List.mem_cons.1 hc with rfl | hc
        · exact h
        · exact lt_trans h (hk.1 c hc)
      next h =>
        split
        next h' => subst h'; exact List.pairwise_cons.2 ⟨hk.1, hk.2⟩
        next h' =>
          refine List.pairwise_cons.2 ⟨fun c hc => ?_, ih hk.2 fun c hc => hb c (List.mem_cons_of_mem _ hc)⟩
          rcases Memory.mem_write hc with rfl | hc
          · show k < a; omega
          · exact hk.1 c hc
  · rcases Memory.mem_write hc with rfl | hc
    · exact ha
    · exact hb c hc

/-- A word that reads as something is listed. -/
theorem Memory.mem_of_read {m : Memory} {a : Nat} {v : Word} (h : m.read a = some v) : (a, v) ∈ m := by
  induction m with
  | nil => simp at h
  | cons d m ih =>
    obtain ⟨k, w⟩ := d
    rw [Memory.read_cons] at h
    split at h
    · simp_all
    · exact List.mem_cons_of_mem _ (ih h)

/-- A canonical array holds nothing outside its 624 words. -/
theorem Memory.read_outside {m : Memory} (hm : m.wf) {a : Nat} (ha : 624 ≤ a) : m.read a = none := by
  cases h : m.read a with
  | none => rfl
  | some v => exact absurd (hm.2 _ (Memory.mem_of_read h)) (by simpa using ha)

/-- Below its first cell a canonical array holds nothing. -/
theorem Memory.read_below {m : Memory} {a : Nat} (h : ∀ c ∈ m, a < c.1) : m.read a = none := by
  cases hr : m.read a with
  | none => rfl
  | some v => exact absurd (h _ (Memory.mem_of_read hr)) (by simp)

/-- Arrays in canonical form that read alike are equal. -/
theorem Memory.ext_of_read {m m' : Memory} (hm : m.wf) (hm' : m'.wf) (h : ∀ a, m.read a = m'.read a) : m = m' := by
  induction m generalizing m' with
  | nil =>
    cases m' with
    | nil => rfl
    | cons d m' => have := h d.1; simp [Memory.read] at this
  | cons c m ih =>
    cases m' with
    | nil => have := h c.1; simp [Memory.read] at this
    | cons d m' =>
      obtain ⟨a, v⟩ := c
      obtain ⟨b, w⟩ := d
      have hc := List.pairwise_cons.1 hm.1
      have hd := List.pairwise_cons.1 hm'.1
      have hab : a = b := by
        rcases Nat.lt_trichotomy a b with hlt | heq | hlt
        · have := h a
          rw [Memory.read_cons, if_pos rfl, Memory.read_cons, if_neg (by omega),
            Memory.read_below fun x hx => lt_trans hlt (hd.1 x hx)] at this
          cases this
        · exact heq
        · have := h b
          rw [Memory.read_cons, if_neg (by omega), Memory.read_below fun x hx => lt_trans hlt (hc.1 x hx),
            Memory.read_cons, if_pos rfl] at this
          cases this
      subst hab
      have hvw : v = w := by simpa [Memory.read] using h a
      subst hvw
      congr 1
      refine ih ⟨hc.2, fun x hx => hm.2 x (List.mem_cons_of_mem _ hx)⟩
        ⟨hd.2, fun x hx => hm'.2 x (List.mem_cons_of_mem _ hx)⟩ fun k => ?_
      by_cases hk : k = a
      · subst hk
        rw [Memory.read_below hc.1, Memory.read_below hd.1]
      · simpa [Memory.read_cons, hk] using h k

/-- When a read of the machine answers, and with what. -/
theorem memRead_eq_ok {m : Memory} {i : Fin 624} {v : Word} : memRead m i = .ok v ↔ m.read i.val = some v := by
  unfold memRead
  split <;> simp_all

/-- The one way a read of the machine fails. -/
theorem memRead_eq_error {m : Memory} {i : Fin 624} {f : Fault} :
    memRead m i = .error f ↔ m.read i.val = none ∧ f = .valuelessWord i := by
  unfold memRead
  cases h : m.read i.val <;> simp [eq_comm]

@[simp] theorem wordAddr_val (k : Nat) : (wordAddr k).val = k % 624 := rfl

theorem nextAddr_val (i : Fin 624) : (nextAddr i).val = (i.val + 1) % 624 := rfl

theorem middleAddr_val (i : Fin 624) : (middleAddr i).val = (i.val + 397) % 624 := rfl

/-- What any word reads as after a write of the machine. -/
theorem read_memWrite (m : Memory) (i : Fin 624) (v : Word) (b : Nat) :
    (memWrite m i v).read b = if b = i.val then some v else m.read b := Memory.read_write m i.val b v

theorem wf_memWrite {m : Memory} (hm : m.wf) (i : Fin 624) (v : Word) : (memWrite m i v).wf :=
  Memory.wf_write hm i.isLt v

end Sys2Proof.Machine
end

