-- ==== Sys2Proof/Laws/Engine.lean ====
section
/-! SUPPORT. What the engine's operations do: seed expansion, one twist iteration, the twist, the output. -/

namespace Sys2Proof.Machine

/-- The word of index `i` of the array a seed expands to. -/
def seedWord (seed : Word) : Nat → Word
  | 0 => seed
  | i + 1 => initWord (seedWord seed i) (i + 1)

theorem initIterations_eq : initIterations = 623 := by rw [initIterations]

theorem twistIterations_eq : twistIterations = 624 := by rw [twistIterations]

theorem initThrough_fst (seed : Word) (k : Nat) (m : Memory) : (initThrough seed k m).1 = seedWord seed k := by
  induction k with
  | zero => rfl
  | succ k ih => simp [initThrough, seedWord, ih]

theorem initThrough_succ_snd (seed : Word) (k : Nat) (m : Memory) :
    (initThrough seed (k + 1) m).2 =
      memWrite (initThrough seed k m).2 (wordAddr (k + 1)) (seedWord seed (k + 1)) := by
  simp [initThrough, seedWord, initThrough_fst]

/-- What any word reads as once the expansion has written words 0 to `k`. -/
theorem initThrough_read (seed : Word) (m : Memory) (k : Nat) (hk : k < 624) (a : Nat) :
    (initThrough seed k m).2.read a = if a ≤ k then some (seedWord seed a) else m.read a := by
  induction k with
  | zero =>
    simp only [initThrough, read_memWrite, wordAddr_val, Nat.zero_mod, Nat.le_zero]
    split <;> simp_all [seedWord]
  | succ k ih =>
    rw [initThrough_succ_snd, read_memWrite, ih (by omega), wordAddr_val, Nat.mod_eq_of_lt hk]
    by_cases h : a = k + 1
    · simp [h]
    · simp [h, show (a ≤ k + 1 ↔ a ≤ k) by omega]

/-- What any word reads as after `init_array(seed)` (R67). -/
theorem initArray_read (seed : Word) (m : Memory) (a : Nat) :
    (initArray seed m).read a = if a < 624 then some (seedWord seed a) else m.read a := by
  rw [initArray, initIterations_eq, initThrough_read seed m 623 (by decide)]
  simp [show (a ≤ 623 ↔ a < 624) by omega]

theorem initThrough_wf {m : Memory} (hm : m.wf) (seed : Word) (k : Nat) : (initThrough seed k m).2.wf := by
  induction k with
  | zero => exact wf_memWrite hm _ _
  | succ k ih => rw [initThrough_succ_snd]; exact wf_memWrite ih _ _

theorem initArray_wf {m : Memory} (hm : m.wf) (seed : Word) : (initArray seed m).wf := by
  rw [initArray]
  exact initThrough_wf hm seed _

/-- One iteration answers exactly when its three words hold values, and then writes the one word (R70). -/
theorem twistStep_eq_ok {i : Fin 624} {m m' : Memory} :
    twistStep i m = .ok m' ↔ ∃ u l w, m.read i.val = some u ∧ m.read (nextAddr i).val = some l ∧
      m.read (middleAddr i).val = some w ∧ m' = memWrite m i (twistWord u l w) := by
  unfold twistStep
  simp only [← memRead_eq_ok]
  cases memRead m i with
  | error f => simp
  | ok u =>
    cases memRead m (nextAddr i) with
    | error f => simp
    | ok l =>
      cases memRead m (middleAddr i) with
      | error f => simp
      | ok w => simp [eq_comm]

/-- The iterations answer for `k` + 1 exactly when they do for `k` and iteration `k` answers on what those left (R71). -/
theorem twistFirst_succ_eq_ok {k : Nat} {m m' : Memory} :
    twistFirst (k + 1) m = .ok m' ↔ ∃ m₁, twistFirst k m = .ok m₁ ∧ twistStep (wordAddr k) m₁ = .ok m' := by
  simp only [twistFirst]
  cases twistFirst k m <;> simp

/-- On an array whose words all hold values the iterations answer, and every word still holds one. -/
theorem twistFirst_defined {m : Memory} (h : ∀ a, a < 624 → (m.read a).isSome) (k : Nat) :
    ∃ m', twistFirst k m = .ok m' ∧ ∀ a, a < 624 → (m'.read a).isSome := by
  induction k with
  | zero => exact ⟨m, rfl, h⟩
  | succ k ih =>
    obtain ⟨m₁, hm₁, h₁⟩ := ih
    obtain ⟨u, hu⟩ := Option.isSome_iff_exists.1 (h₁ _ (wordAddr k).isLt)
    obtain ⟨l, hl⟩ := Option.isSome_iff_exists.1 (h₁ _ (nextAddr (wordAddr k)).isLt)
    obtain ⟨w, hw⟩ := Option.isSome_iff_exists.1 (h₁ _ (middleAddr (wordAddr k)).isLt)
    refine ⟨_, twistFirst_succ_eq_ok.2 ⟨m₁, hm₁, twistStep_eq_ok.2 ⟨u, l, w, hu, hl, hw, rfl⟩⟩, fun a ha => ?_⟩
    rw [read_memWrite]
    split
    · rfl
    · exact h₁ a ha

/-- The iterations write words 0 to `k` − 1 and no others. -/
theorem twistFirst_read_later {m m' : Memory} {k : Nat} (hk : k ≤ 624) (h : twistFirst k m = .ok m') {a : Nat}
    (ha : k ≤ a) : m'.read a = m.read a := by
  induction k generalizing m' with
  | zero => cases h; rfl
  | succ k ih =>
    obtain ⟨m₁, h₁, h₂⟩ := twistFirst_succ_eq_ok.1 h
    obtain ⟨u, l, w, -, -, -, rfl⟩ := twistStep_eq_ok.1 h₂
    rw [read_memWrite, if_neg, ih (by omega) h₁ (by omega)]
    rw [wordAddr_val, Nat.mod_eq_of_lt (by omega)]; omega

theorem twistFirst_wf {m m' : Memory} (hm : m.wf) {k : Nat} (h : twistFirst k m = .ok m') : m'.wf := by
  induction k generalizing m' with
  | zero => cases h; exact hm
  | succ k ih =>
    obtain ⟨m₁, h₁, h₂⟩ := twistFirst_succ_eq_ok.1 h
    obtain ⟨u, l, w, -, -, -, rfl⟩ := twistStep_eq_ok.1 h₂
    exact wf_memWrite (ih h₁) _ _

/-- Word `j` < `k`, once iteration `j` has written it, stays what it is. -/
theorem twistFirst_read_earlier {m m₁ m' : Memory} {j k : Nat} (hk : k ≤ 624) (hj : j ≤ k)
    (h₁ : twistFirst j m = .ok m₁) (h : twistFirst k m = .ok m') {a : Nat} (ha : a < j) : m'.read a = m₁.read a := by
  induction k generalizing m' with
  | zero => omega
  | succ k ih =>
    rcases Nat.lt_or_ge k j with hlt | hge
    · obtain rfl : j = k + 1 := by omega
      rw [h] at h₁; cases h₁; rfl
    · obtain ⟨m₂, h₂, h₃⟩ := twistFirst_succ_eq_ok.1 h
      obtain ⟨u, l, w, -, -, -, rfl⟩ := twistStep_eq_ok.1 h₃
      rw [read_memWrite, if_neg, ih (by omega) hge h₂]
      rw [wordAddr_val, Nat.mod_eq_of_lt (by omega)]; omega

/-- The prefixes of a whole pass all answer. -/
theorem twistFirst_prefix {m m' : Memory} {j k : Nat} (hj : j ≤ k) (h : twistFirst k m = .ok m') :
    ∃ m₁, twistFirst j m = .ok m₁ := by
  induction k generalizing m' with
  | zero => exact ⟨m', by rwa [Nat.le_zero.1 hj]⟩
  | succ k ih =>
    rcases Nat.lt_or_ge k j with hlt | hge
    · obtain rfl : j = k + 1 := by omega
      exact ⟨m', h⟩
    · obtain ⟨m₂, h₂, -⟩ := twistFirst_succ_eq_ok.1 h
      exact ih hge h₂

/-- When a twist answers, and with what (R71). -/
theorem twist_eq_ok {s t : State} :
    twist s = .ok t ↔ ∃ m, twistFirst 624 s.mt = .ok m ∧ t = { s with mt := m, idx := 0 } := by
  rw [twist, twistIterations_eq]
  cases twistFirst 624 s.mt <;> simp [eq_comm]

/-- What `refresh` answers when no twist is due. -/
theorem refresh_of_lt {s : State} (h : s.idx.val < 624) : refresh s = .ok (⟨s.idx.val, h⟩, s) := by
  simp [refresh, h]

/-- What `refresh` answers when a twist is due (R79). -/
theorem refresh_of_exhausted {s t : State} (h : s.idx.val = 624) (ht : twist s = .ok t) : refresh s = .ok (0, t) := by
  simp [refresh, h, ht]

/-- `refresh` answers with the state as it was, or with the twisted one and word 0 (R79). -/
theorem refresh_eq_ok {s t : State} {i : Fin 624} (h : refresh s = .ok (i, t)) :
    (s.idx.val < 624 ∧ i.val = s.idx.val ∧ t = s) ∨ (s.idx.val = 624 ∧ i = 0 ∧ twist s = .ok t) := by
  unfold refresh at h
  split at h
  next hlt => cases h; exact .inl ⟨hlt, rfl, rfl⟩
  next hge =>
    refine .inr ⟨by have := s.idx.isLt; omega, ?_⟩
    cases ht : twist s with
    | error f => rw [ht] at h; cases h
    | ok t' => rw [ht] at h; cases h; exact ⟨rfl, rfl⟩

/-- What `next()` answers (R79): the tempered word at the address `refresh` gives, and the cursor past it. -/
theorem nextOutput_eq_ok {s t : State} {d : Word} :
    nextOutput s = .ok (d, t) ↔ ∃ i t₁ w, refresh s = .ok (i, t₁) ∧ t₁.mt.read i.val = some w ∧ d = temper w ∧
      t = { t₁ with idx := i.succ } := by
  unfold nextOutput
  cases hr : refresh s with
  | error f => simp
  | ok p =>
    obtain ⟨i, t₁⟩ := p
    cases hm : memRead t₁.mt i with
    | error f => simp [hm, (memRead_eq_error.1 hm).1]
    | ok w =>
      have hw := memRead_eq_ok.1 hm
      simp only [hm, Except.ok.injEq, Prod.mk.injEq]
      constructor
      · rintro ⟨rfl, rfl⟩
        exact ⟨i, t₁, w, ⟨rfl, rfl⟩, hw, rfl, rfl⟩
      · rintro ⟨i', t', w', ⟨rfl, rfl⟩, hw', rfl, rfl⟩
        rw [hw] at hw'
        cases hw'
        exact ⟨rfl, rfl⟩

end Sys2Proof.Machine
end

