-- ==== Sys2Proof/Laws/State.lean ====
section
/-! SUPPORT. One lemma per field and update of State. -/

namespace Sys2Proof.Machine

section Respond
variable (st : Status) (d : Word) (s : State)
@[simp] theorem respond_mt : (respond st d s).mt = s.mt := rfl
@[simp] theorem respond_idx : (respond st d s).idx = s.idx := rfl
@[simp] theorem respond_seeded : (respond st d s).seeded = s.seeded := rfl
@[simp] theorem respond_response : (respond st d s).response = some ⟨st, d⟩ := rfl
@[simp] theorem respond_entropy : (respond st d s).entropy = s.entropy := rfl
@[simp] theorem respond_inputs : (respond st d s).inputs = s.inputs := rfl
@[simp] theorem respond_params : (respond st d s).params = s.params := rfl
end Respond

section Raise
variable (e : ErrorCause) (s : State)
@[simp] theorem raise_mt : (raise e s).mt = s.mt := rfl
@[simp] theorem raise_idx : (raise e s).idx = s.idx := rfl
@[simp] theorem raise_seeded : (raise e s).seeded = s.seeded := rfl
@[simp] theorem raise_response : (raise e s).response = some ⟨.err e, 0⟩ := rfl
@[simp] theorem raise_entropy : (raise e s).entropy = s.entropy := rfl
@[simp] theorem raise_inputs : (raise e s).inputs = s.inputs := rfl
@[simp] theorem raise_params : (raise e s).params = s.params := rfl
end Raise

section Construct
variable (seed : Word) (s : State)
@[simp] theorem construct_mt : (construct seed s).mt = initArray seed s.mt := rfl
@[simp] theorem construct_idx : (construct seed s).idx = Config.idxExhausted := rfl
@[simp] theorem construct_seeded : (construct seed s).seeded = true := rfl
@[simp] theorem construct_response : (construct seed s).response = s.response := rfl
@[simp] theorem construct_entropy : (construct seed s).entropy = s.entropy := rfl
@[simp] theorem construct_inputs : (construct seed s).inputs = s.inputs := rfl
@[simp] theorem construct_params : (construct seed s).params = s.params := rfl
end Construct

section Reset
variable (s : State)
@[simp] theorem resetBlock_mt : (resetBlock s).mt = [] := rfl
@[simp] theorem resetBlock_idx : (resetBlock s).idx = Config.idxExhausted := rfl
@[simp] theorem resetBlock_seeded : (resetBlock s).seeded = false := rfl
@[simp] theorem resetBlock_response : (resetBlock s).response = none := rfl
@[simp] theorem resetBlock_entropy : (resetBlock s).entropy = s.entropy := rfl
@[simp] theorem resetBlock_inputs : (resetBlock s).inputs = s.inputs := rfl
@[simp] theorem resetBlock_params : (resetBlock s).params = s.params := rfl
/-- The reset state is what asserting `rst` leaves of itself. -/
theorem resetBlock_reset : resetBlock State.reset = State.reset := rfl
end Reset

section Present
variable (w : CommandWord) (s : State)
@[simp] theorem presentCommand_mt : (presentCommand w s).mt = s.mt := rfl
@[simp] theorem presentCommand_idx : (presentCommand w s).idx = s.idx := rfl
@[simp] theorem presentCommand_seeded : (presentCommand w s).seeded = s.seeded := rfl
@[simp] theorem presentCommand_response : (presentCommand w s).response = none := rfl
@[simp] theorem presentCommand_entropy : (presentCommand w s).entropy = s.entropy := rfl
@[simp] theorem presentCommand_inputs : (presentCommand w s).inputs = .command w :: s.inputs := rfl
@[simp] theorem presentCommand_params : (presentCommand w s).params = s.params := rfl
end Present

@[simp] theorem idxExhausted_val : (Config.idxExhausted : Fin 625).val = 624 := rfl

end Sys2Proof.Machine
end

