-- ==== Sys2Proof/Laws/Exec.lean ====
section
/-! SUPPORT. What each command can do, once, for every later proof to cite. -/

namespace Sys2Proof.Machine

/-- TWIST as one equation over the state's fields (R72). -/
theorem execTwist_eq (s : State) : execTwist s =
    if s.seeded then
      match twistFirst 624 s.mt with
      | .error f => .fault f
      | .ok m => .next (respond .ok 0 { s with mt := m, idx := 0 })
    else .next (raise .unseeded s) := by
  rw [execTwist, twist, twistIterations_eq]
  cases twistFirst 624 s.mt <;> rfl

/-- NEXT before construction (R80). -/
theorem execNext_of_unseeded {s : State} (hs : s.seeded = false) : execNext s = .next (raise .unseeded s) := by
  simp [execNext, hs]

/-- NEXT with no twist due, as one equation over the state's fields (R79). -/
theorem execNext_of_lt {s : State} (hs : s.seeded = true) (h : s.idx.val < 624) : execNext s =
    match memRead s.mt ⟨s.idx.val, h⟩ with
    | .error f => .fault f
    | .ok w => .next (respond .ok (temper w) { s with idx := ⟨s.idx.val + 1, by omega⟩ }) := by
  rw [execNext, nextOutput, refresh_of_lt h, if_pos hs]
  simp only
  cases memRead s.mt ⟨s.idx.val, h⟩ <;> rfl

/-- NEXT with a twist due, as one equation over the state's fields (R79). -/
theorem execNext_of_exhausted {s : State} (hs : s.seeded = true) (h : s.idx.val = 624) : execNext s =
    match twistFirst 624 s.mt with
    | .error f => .fault f
    | .ok m =>
      match memRead m 0 with
      | .error f => .fault f
      | .ok w => .next (respond .ok (temper w) { s with mt := m, idx := 1 }) := by
  rw [execNext, nextOutput, refresh, dif_neg (by omega), twist, twistIterations_eq, if_pos hs]
  cases twistFirst 624 s.mt with
  | error f => rfl
  | ok m =>
    simp only
    cases memRead m 0 <;> rfl

/-- What TWIST can answer when it answers a next state (R72). -/
theorem execTwist_next {s t : State} (h : execTwist s = .next t) :
    (s.seeded = false ∧ t = raise .unseeded s) ∨
    (s.seeded = true ∧ ∃ m, twistFirst 624 s.mt = .ok m ∧ t = respond .ok 0 { s with mt := m, idx := 0 }) := by
  unfold execTwist at h
  split at h
  next hs =>
    cases ht : twist s with
    | error f => rw [ht] at h; cases h
    | ok t₁ =>
      rw [ht] at h
      cases h
      obtain ⟨m, hm, rfl⟩ := twist_eq_ok.1 ht
      exact .inr ⟨hs, m, hm, rfl⟩
  next hs => cases h; exact .inl ⟨by simpa using hs, rfl⟩

/-- What NEXT can answer when it answers a next state (R80). -/
theorem execNext_next {s t : State} (h : execNext s = .next t) :
    (s.seeded = false ∧ t = raise .unseeded s) ∨
    (s.seeded = true ∧ ∃ i t₁ w, refresh s = .ok (i, t₁) ∧ t₁.mt.read i.val = some w ∧
      t = respond .ok (temper w) { t₁ with idx := i.succ }) := by
  unfold execNext at h
  split at h
  next hs =>
    cases hn : nextOutput s with
    | error f => rw [hn] at h; cases h
    | ok p =>
      obtain ⟨d, t₂⟩ := p
      rw [hn] at h
      cases h
      obtain ⟨i, t₁, w, h₁, h₂, rfl, rfl⟩ := nextOutput_eq_ok.1 hn
      exact .inr ⟨hs, i, t₁, w, h₁, h₂, rfl⟩
  next hs => cases h; exact .inl ⟨by simpa using hs, rfl⟩

/-- What NEW answers (R87): always a next state. -/
theorem execNew_cases (a : Word) (s : State) :
    (a = 0 ∧ s.entropy.hwOk = false ∧ execNew a s = .next (raise .entropy s)) ∨
    (a = 0 ∧ s.entropy.hwOk = true ∧
      execNew a s = .next (respond .ok 0 (construct (deriveSeed s.params s.entropy) s))) ∨
    (a ≠ 0 ∧ execNew a s = .next (respond .ok 0 (construct a s))) := by
  by_cases ha : a = 0
  · cases hk : s.entropy.hwOk
    · exact .inl ⟨ha, rfl, by simp [execNew, chooseSeed, ha, hk]⟩
    · exact .inr (.inl ⟨ha, rfl, by simp [execNew, chooseSeed, ha, hk]⟩)
  · exact .inr (.inr ⟨ha, by simp only [execNew, chooseSeed, if_neg ha]⟩)

/-- On an array whose words all hold values a constructed engine's TWIST answers a next state. -/
theorem execTwist_defined {s : State} (hs : s.seeded = true) (h : ∀ a, a < 624 → (s.mt.read a).isSome) :
    ∃ m, twistFirst 624 s.mt = .ok m ∧ (∀ a, a < 624 → (m.read a).isSome) ∧
      execTwist s = .next (respond .ok 0 { s with mt := m, idx := 0 }) := by
  obtain ⟨m, hm, hd⟩ := twistFirst_defined h 624
  exact ⟨m, hm, hd, by simp [execTwist, hs, twist, twistIterations_eq, hm]⟩

/-- On an array whose words all hold values a constructed engine's NEXT answers a next state. -/
theorem execNext_defined {s : State} (hs : s.seeded = true) (h : ∀ a, a < 624 → (s.mt.read a).isSome) :
    ∃ i t₁ w, refresh s = .ok (i, t₁) ∧ t₁.mt.read i.val = some w ∧
      execNext s = .next (respond .ok (temper w) { t₁ with idx := i.succ }) := by
  have key : ∃ i t₁, refresh s = .ok (i, t₁) ∧ ∀ a, a < 624 → (t₁.mt.read a).isSome := by
    rcases Nat.lt_or_ge s.idx.val 624 with hlt | hge
    · exact ⟨_, _, refresh_of_lt hlt, h⟩
    · have heq : s.idx.val = 624 := by have := s.idx.isLt; omega
      obtain ⟨m, hm, hd⟩ := twistFirst_defined h 624
      exact ⟨_, _, refresh_of_exhausted heq (twist_eq_ok.2 ⟨m, hm, rfl⟩), hd⟩
  obtain ⟨i, t₁, hr, hd⟩ := key
  obtain ⟨w, hw⟩ := Option.isSome_iff_exists.1 (hd i.val i.isLt)
  refine ⟨i, t₁, w, hr, hw, ?_⟩
  have hn := nextOutput_eq_ok.2 ⟨i, t₁, w, hr, hw, rfl, rfl⟩
  simp [execNext, hs, hn]

/-- Every command leaves the host's side of the state as it was, and answers with some response. -/
theorem exec_next_host {i : Instr} {s t : State} (h : exec i s = .next t) :
    t.entropy = s.entropy ∧ t.inputs = s.inputs ∧ t.params = s.params ∧ t.response.isSome := by
  cases i with
  | mix a b => cases h; simp
  | init seed => cases h; simp
  | twist => rcases execTwist_next h with ⟨-, rfl⟩ | ⟨-, m, -, rfl⟩ <;> simp
  | next =>
    rcases execNext_next h with ⟨-, rfl⟩ | ⟨-, i, t₁, w, hr, -, rfl⟩
    · simp
    · rcases refresh_eq_ok hr with ⟨-, -, rfl⟩ | ⟨-, -, ht⟩
      · simp
      · obtain ⟨m, -, rfl⟩ := twist_eq_ok.1 ht
        simp
  | temper y => cases h; simp
  | new a =>
    change execNew a s = .next t at h
    rcases execNew_cases a s with ⟨-, -, e⟩ | ⟨-, -, e⟩ | ⟨-, e⟩ <;> rw [e] at h <;> cases h <;> simp

/-- No command clears `SEEDED` (R18). -/
theorem exec_next_seeded {i : Instr} {s t : State} (h : exec i s = .next t) (hs : s.seeded = true) :
    t.seeded = true := by
  cases i with
  | mix a b => cases h; exact hs
  | init seed => cases h; rfl
  | twist => rcases execTwist_next h with ⟨-, rfl⟩ | ⟨-, m, -, rfl⟩ <;> exact hs
  | next =>
    rcases execNext_next h with ⟨-, rfl⟩ | ⟨-, i, t₁, w, hr, -, rfl⟩
    · exact hs
    · rcases refresh_eq_ok hr with ⟨-, -, rfl⟩ | ⟨-, -, ht⟩
      · exact hs
      · obtain ⟨m, -, rfl⟩ := twist_eq_ok.1 ht
        exact hs
  | temper y => cases h; exact hs
  | new a =>
    change execNew a s = .next t at h
    rcases execNew_cases a s with ⟨-, -, e⟩ | ⟨-, -, e⟩ | ⟨-, e⟩ <;> rw [e] at h <;> cases h <;> simp [hs]

/-- No command reads what the host will do next. -/
theorem exec_with_inputs {i : Instr} {s t : State} (l : List HostInput) (h : exec i s = .next t) :
    exec i { s with inputs := l } = .next { t with inputs := l } := by
  cases i with
  | mix a b => cases h; rfl
  | init a => cases h; rfl
  | twist =>
    simp only [exec] at *
    rcases execTwist_next h with ⟨hs, rfl⟩ | ⟨hs, m, hm, rfl⟩
    · rw [execTwist_eq, if_neg (by simp [hs])]; rfl
    · rw [execTwist_eq, if_pos hs]; simp only [hm]; rfl
  | next =>
    simp only [exec] at *
    rcases execNext_next h with ⟨hs, rfl⟩ | ⟨hs, i, t₁, w, hr, hw, rfl⟩
    · rw [execNext_of_unseeded (s := { s with inputs := l }) hs]; rfl
    · rcases refresh_eq_ok hr with ⟨hlt, hi, rfl⟩ | ⟨heq, rfl, ht⟩
      · obtain rfl : i = ⟨t₁.idx.val, hlt⟩ := Fin.ext hi
        rw [execNext_of_lt (s := { t₁ with inputs := l }) hs hlt]
        simp only [memRead_eq_ok.2 hw]
        rfl
      · obtain ⟨m, hm, rfl⟩ := twist_eq_ok.1 ht
        rw [execNext_of_exhausted (s := { s with inputs := l }) hs heq]
        have hw' : memRead m 0 = .ok w := memRead_eq_ok.2 hw
        simp only [hm, hw']
        rfl
  | temper y => cases h; rfl
  | new a =>
    simp only [exec, execNew] at *
    cases hc : chooseSeed a s.params s.entropy <;> simp only [hc] at * <;> cases h <;> rfl

end Sys2Proof.Machine
end

