-- ==== Sys2Proof/Laws/Safety.lean ====
section
/-! SUPPORT. The spec's recurrence and the engine's twist iteration are one function, and the runs of NEXT one step at a
time. -/

namespace Sys2Proof.Machine

/-- The engine's names for what `recurrenceF` computes. -/
theorem recurrenceF_eq (u l : Word) :
    recurrenceF u l = (twistY u l >>> 1) ^^^ (if isOdd (twistY u l) then Config.matrixA else 0) := rfl

/-- A twist iteration XORs its third word with `f` of the first two (42_engine.md R70, R75). -/
theorem twistWord_eq (u l w : Word) : twistWord u l w = w ^^^ recurrenceF u l := by
  rw [recurrenceF_eq, twistWord]
  split
  · rw [BitVec.xor_assoc]
  · simp

theorem nextRun_zero (s : State) : nextRun 0 s = some s := rfl

/-- One more NEXT of a run that has come to `t`. -/
theorem nextRun_succ {n : Nat} {s t u : State} (ht : nextRun n s = some t) (hu : exec .next t = .next u) :
    nextRun (n + 1) s = some u := by
  simp [nextRun, ht, hu]

/-- The count of twists after one more NEXT of a run that has come to `t`. -/
theorem twistsWithin_succ {n : Nat} {s t : State} (ht : nextRun n s = some t) :
    twistsWithin (n + 1) s = twistsWithin n s + (twistDue t).toNat := by
  simp [twistsWithin, ht]

end Sys2Proof.Machine
end

