-- ==== Sys2Proof/Laws/Twist.lean ====
section
/-! SUPPORT. The words a whole twist leaves, and that they are the only ones the closed form allows. -/

namespace Sys2Proof.Machine

/-- What iteration `k` of a whole pass reads, on the array the iterations before it left, and the word it leaves for good
(42_engine.md R70, R71). -/
theorem twistFirst_iteration {m m' : Memory} (h : twistFirst 624 m = .ok m') {k : Nat} (hk : k < 624) :
    ∃ m₁ u l w, twistFirst k m = .ok m₁ ∧ m₁.read k = some u ∧ m₁.read ((k + 1) % 624) = some l ∧
      m₁.read ((k + 397) % 624) = some w ∧ m'.read k = some (w ^^^ recurrenceF u l) := by
  obtain ⟨m₂, h₂⟩ := twistFirst_prefix (j := k + 1) (by omega) h
  obtain ⟨m₁, h₁, hs⟩ := twistFirst_succ_eq_ok.1 h₂
  obtain ⟨u, l, w, hu, hl, hw, rfl⟩ := twistStep_eq_ok.1 hs
  have hkv : (wordAddr k).val = k := Nat.mod_eq_of_lt hk
  rw [nextAddr_val, hkv] at hl
  rw [middleAddr_val, hkv] at hw
  rw [hkv] at hu
  refine ⟨m₁, u, l, w, h₁, hu, hl, hw, ?_⟩
  rw [twistFirst_read_earlier (by decide) (by omega) h₂ h (Nat.lt_succ_self k), read_memWrite, if_pos hkv.symm,
    twistWord_eq]

/-- A whole pass over the words `x` leaves words `x'` as the closed form says (42_engine.md R73, R75). -/
theorem twistFirst_words {m m' : Memory} {x : Nat → Word} (hx : ∀ i, i < 624 → m.read i = some (x i))
    (h : twistFirst 624 m = .ok m') :
    ∃ x', (∀ i, i < 624 → m'.read i = some (x' i)) ∧ TwistWords x x' := by
  have hx' : ∀ i, i < 624 → m'.read i = some ((m'.read i).getD 0) := fun i hi => by
    obtain ⟨m₁, u, l, w, -, -, -, -, hr⟩ := twistFirst_iteration h hi
    simp [hr]
  have old : ∀ k m₁ a, k ≤ 624 → twistFirst k m = .ok m₁ → k ≤ a → a < 624 → m₁.read a = some (x a) :=
    fun k m₁ a hk h₁ ha ha' => by rw [twistFirst_read_later hk h₁ ha, hx a ha']
  have new : ∀ k m₁ a, k ≤ 624 → twistFirst k m = .ok m₁ → a < k → m₁.read a = some ((m'.read a).getD 0) :=
    fun k m₁ a hk h₁ ha => by
      rw [← twistFirst_read_earlier (by decide) hk h₁ h ha]
      exact hx' a (by omega)
  refine ⟨fun i => (m'.read i).getD 0, hx', fun i hi => ?_, fun i hi hi' => ?_, ?_⟩
  · obtain ⟨m₁, u, l, w, h₁, hu, hl, hw, hr⟩ := twistFirst_iteration h (k := i) (by omega)
    rw [Nat.mod_eq_of_lt (by omega)] at hl hw
    rw [old i m₁ _ (by omega) h₁ (by omega) (by omega)] at hu hl hw
    cases hu; cases hl; cases hw
    simp [hr]
  · obtain ⟨m₁, u, l, w, h₁, hu, hl, hw, hr⟩ := twistFirst_iteration h (k := i) (by omega)
    rw [Nat.mod_eq_of_lt (by omega)] at hl
    rw [show (i + 397) % 624 = i - 227 by omega, new i m₁ _ (by omega) h₁ (by omega)] at hw
    rw [old i m₁ _ (by omega) h₁ (by omega) (by omega)] at hu hl
    cases hu; cases hl; cases hw
    simp [hr]
  · obtain ⟨m₁, u, l, w, h₁, hu, hl, hw, hr⟩ := twistFirst_iteration h (k := 623) (by omega)
    rw [show (623 + 1) % 624 = 0 by omega, new 623 m₁ _ (by omega) h₁ (by omega)] at hl
    rw [show (623 + 397) % 624 = 396 by omega, new 623 m₁ _ (by omega) h₁ (by omega)] at hw
    rw [old 623 m₁ _ (by omega) h₁ (by omega) (by omega)] at hu
    cases hu; cases hl; cases hw
    simp [hr]

/-- The closed form determines the words of the twisted array. -/
theorem TwistWords.unique {x x' x'' : Nat → Word} (h' : TwistWords x x') (h'' : TwistWords x x'') :
    ∀ i, i < 624 → x' i = x'' i := by
  obtain ⟨a', b', c'⟩ := h'
  obtain ⟨a'', b'', c''⟩ := h''
  intro i
  induction i using Nat.strong_induction_on with
  | _ i ih =>
    intro hi
    by_cases h : i ≤ 226
    · rw [a' i h, a'' i h]
    · by_cases h₂ : i ≤ 622
      · rw [b' i (by omega) h₂, b'' i (by omega) h₂, ih (i - 227) (by omega) (by omega)]
      · obtain rfl : i = 623 := by omega
        rw [c', c'', ih 396 (by omega) (by omega), ih 0 (by omega) (by omega)]

end Sys2Proof.Machine
end

