-- ==== Sys2Proof/Laws/Fast.lean ====
section
/-! SUPPORT. Seed expansion and twist over a plain list of words, proved equal to the model's loops. The kernel evaluates
these in one walk of the list, so a test of a whole array goes through them. -/

namespace Sys2Proof.Machine

/-- The array whose words from index `b` on are the given ones. -/
def arrayFrom (b : Nat) : List Word → Memory
  | [] => []
  | w :: ws => (b, w) :: arrayFrom (b + 1) ws

theorem arrayFrom_read (ws : List Word) (b a : Nat) :
    (arrayFrom b ws).read a = if b ≤ a then ws[a - b]? else none := by
  induction ws generalizing b with
  | nil => simp [arrayFrom]
  | cons w ws ih =>
    rw [arrayFrom, Memory.read_cons, ih]
    rcases Nat.lt_trichotomy a b with h | rfl | h
    · simp [show ¬ b ≤ a by omega, show ¬ b + 1 ≤ a by omega, show a ≠ b by omega]
    · simp
    · rw [if_neg (by omega), if_pos (by omega), if_pos (by omega), show a - b = (a - (b + 1)) + 1 by omega,
        List.getElem?_cons_succ]

theorem arrayFrom_mem {ws : List Word} {b : Nat} {c : Nat × Word} (h : c ∈ arrayFrom b ws) :
    b ≤ c.1 ∧ c.1 < b + ws.length := by
  induction ws generalizing b with
  | nil => simp [arrayFrom] at h
  | cons w ws ih =>
    rcases List.mem_cons.1 h with rfl | h
    · simp
    · have := ih h
      simp only [List.length_cons]
      omega

theorem arrayFrom_wf {ws : List Word} (h : ws.length ≤ 624) : (arrayFrom 0 ws).wf := by
  refine ⟨?_, fun c hc => by have := arrayFrom_mem hc; omega⟩
  have key : ∀ (ws : List Word) (b : Nat), (arrayFrom b ws).Pairwise fun c d => c.1 < d.1 := by
    intro ws
    induction ws with
    | nil => intro b; exact .nil
    | cons w ws ih => intro b; exact List.pairwise_cons.2 ⟨fun c hc => (arrayFrom_mem hc).1, ih (b + 1)⟩
  exact key ws 0

/-- `k` + 1 words of the seed expansion from word `i`, which is `p`. -/
def seedList : Nat → Nat → Word → List Word
  | 0, _, p => [p]
  | k + 1, i, p => p :: seedList k (i + 1) (initWord p (i + 1))

theorem seedList_getElem? (seed : Word) (k i j : Nat) :
    (seedList k i (seedWord seed i))[j]? = if j ≤ k then some (seedWord seed (i + j)) else none := by
  induction k generalizing i j with
  | zero => cases j <;> simp [seedList]
  | succ k ih =>
    cases j with
    | zero => simp [seedList]
    | succ j =>
      rw [seedList, List.getElem?_cons_succ]
      have h := ih (i + 1) j
      rw [seedWord] at h
      rw [h]
      simp [Nat.add_comm, Nat.add_left_comm]

/-- The model's seed expansion is the list's (42_engine.md R67). -/
theorem initArray_eq_list {m : Memory} (hm : m.wf) (seed : Word) :
    initArray seed m = arrayFrom 0 (seedList 623 0 seed) := by
  have hl := seedList_getElem? seed 623 0
  have hlen : (seedList 623 0 seed).length ≤ 624 := List.getElem?_eq_none_iff.1 (by simpa [seedWord] using hl 624)
  refine Memory.ext_of_read (initArray_wf hm seed) (arrayFrom_wf hlen) fun a => ?_
  rw [initArray_read, arrayFrom_read, if_pos (Nat.zero_le a), Nat.sub_zero]
  have ha := hl a
  rw [seedWord, Nat.zero_add] at ha
  rw [ha]
  by_cases h : a < 624
  · rw [if_pos h, if_pos (by omega)]
  · rw [if_neg h, if_neg (by omega), Memory.read_outside hm (by omega)]

/-- The words of a twisted array from the words before, in three runs of the third read and the last word. -/
def twistList (ws : List Word) : List Word :=
  let f := List.zipWith recurrenceF ws ws.tail
  let a := List.zipWith (· ^^^ ·) (ws.drop 397) f
  let b := List.zipWith (· ^^^ ·) a (f.drop 227)
  let c := List.zipWith (· ^^^ ·) b (f.drop 454)
  let l := a ++ (b ++ c)
  l ++ [(l[396]?.getD 0) ^^^ recurrenceF (ws[623]?.getD 0) (l[0]?.getD 0)]

theorem twistList_words {ws : List Word} (h : ws.length = 624) :
    (twistList ws).length = 624 ∧ TwistWords (fun i => ws[i]?.getD 0) (fun i => (twistList ws)[i]?.getD 0) := by
  obtain ⟨f, hf⟩ : ∃ f, f = List.zipWith recurrenceF ws ws.tail := ⟨_, rfl⟩
  obtain ⟨a, ha⟩ : ∃ a, a = List.zipWith (· ^^^ ·) (ws.drop 397) f := ⟨_, rfl⟩
  obtain ⟨b, hb⟩ : ∃ b, b = List.zipWith (· ^^^ ·) a (f.drop 227) := ⟨_, rfl⟩
  obtain ⟨d, hd⟩ : ∃ d, d = List.zipWith (· ^^^ ·) b (f.drop 454) := ⟨_, rfl⟩
  have ht : twistList ws = a ++ (b ++ d) ++
      [((a ++ (b ++ d))[396]?.getD 0) ^^^ recurrenceF (ws[623]?.getD 0) ((a ++ (b ++ d))[0]?.getD 0)] := by
    rw [hd, hb, ha, hf]; rfl
  have lf : f.length = 623 := by rw [hf]; simp [h]
  have la : a.length = 227 := by rw [ha]; simp [h, lf]
  have lb : b.length = 227 := by rw [hb]; simp [la, lf]
  have ld : d.length = 169 := by rw [hd]; simp [lb, lf]
  have gx : ∀ i, i < 624 → ws[i]? = some (ws[i]?.getD 0) := fun i hi => by
    rw [List.getElem?_eq_getElem (by omega)]; rfl
  have gf : ∀ i, i < 623 → f[i]? = some (recurrenceF (ws[i]?.getD 0) (ws[i + 1]?.getD 0)) := fun i hi => by
    rw [hf, List.getElem?_zipWith, List.getElem?_tail, gx i (by omega), gx (i + 1) (by omega)]
    rfl
  have ga : ∀ i, i ≤ 226 → a[i]? =
      some (ws[i + 397]?.getD 0 ^^^ recurrenceF (ws[i]?.getD 0) (ws[i + 1]?.getD 0)) := fun i hi => by
    rw [ha, List.getElem?_zipWith, List.getElem?_drop, Nat.add_comm 397 i, gx (i + 397) (by omega), gf i (by omega)]
    rfl
  have gb : ∀ i, i ≤ 226 → b[i]? =
      some (a[i]?.getD 0 ^^^ recurrenceF (ws[227 + i]?.getD 0) (ws[227 + i + 1]?.getD 0)) := fun i hi => by
    rw [hb, List.getElem?_zipWith, List.getElem?_drop, gf (227 + i) (by omega), ga i hi]
    rfl
  have gd : ∀ i, i ≤ 168 → d[i]? =
      some (b[i]?.getD 0 ^^^ recurrenceF (ws[454 + i]?.getD 0) (ws[454 + i + 1]?.getD 0)) := fun i hi => by
    rw [hd, List.getElem?_zipWith, List.getElem?_drop, gf (454 + i) (by omega), gb i (by omega)]
    rfl
  have t1 : ∀ i, i < 227 → (twistList ws)[i]? = a[i]? := fun i hi => by
    rw [ht, List.getElem?_append_left (by simp; omega), List.getElem?_append_left (by omega)]
  have t2 : ∀ i, 227 ≤ i → i < 454 → (twistList ws)[i]? = b[i - 227]? := fun i hi hi' => by
    rw [ht, List.getElem?_append_left (by simp; omega), List.getElem?_append_right (by omega), la,
      List.getElem?_append_left (by omega)]
  have t3 : ∀ i, 454 ≤ i → i < 623 → (twistList ws)[i]? = d[i - 454]? := fun i hi hi' => by
    rw [ht, List.getElem?_append_left (by simp; omega), List.getElem?_append_right (by omega), la,
      List.getElem?_append_right (by omega), lb, show i - 227 - 227 = i - 454 by omega]
  have tl : ∀ i, i < 623 → (twistList ws)[i]? = (a ++ (b ++ d))[i]? := fun i hi => by
    rw [ht, List.getElem?_append_left (by simp; omega)]
  refine ⟨by rw [ht]; simp; omega, fun i hi => ?_, fun i hi hi' => ?_, ?_⟩
  · simp only
    rw [t1 i (by omega), ga i hi]; rfl
  · simp only
    by_cases h2 : i < 454
    · rw [t2 i hi h2, t1 (i - 227) (by omega), gb (i - 227) (by omega), show 227 + (i - 227) = i by omega]; rfl
    · rw [t3 i (by omega) (by omega), t2 (i - 227) (by omega) (by omega), gd (i - 454) (by omega),
        show 454 + (i - 454) = i by omega, show i - 227 - 227 = i - 454 by omega]; rfl
  · simp only
    rw [tl 396 (by omega), tl 0 (by omega)]
    conv_lhs => rw [ht, List.getElem?_append_right (by simp; omega)]
    have : 623 - (a ++ (b ++ d)).length = 0 := by simp; omega
    rw [this]; rfl

/-- The model's twist is the list's (42_engine.md R71). -/
theorem twistFirst_eq_list {ws : List Word} (h : ws.length = 624) :
    twistFirst 624 (arrayFrom 0 ws) = .ok (arrayFrom 0 (twistList ws)) := by
  obtain ⟨hlen, hw⟩ := twistList_words h
  have rd : ∀ (vs : List Word), vs.length = 624 → ∀ i, i < 624 →
      (arrayFrom 0 vs).read i = some (vs[i]?.getD 0) := fun vs hv i hi => by
    rw [arrayFrom_read, if_pos (Nat.zero_le i), Nat.sub_zero, List.getElem?_eq_getElem (by omega)]; rfl
  obtain ⟨m', hm', -⟩ := twistFirst_defined (m := arrayFrom 0 ws) (fun i hi => by rw [rd ws h i hi]; rfl) 624
  obtain ⟨x', hx', hT⟩ := twistFirst_words (rd ws h) hm'
  have he : m' = arrayFrom 0 (twistList ws) := by
    refine Memory.ext_of_read (twistFirst_wf (arrayFrom_wf (by omega)) hm') (arrayFrom_wf (by omega)) fun i => ?_
    by_cases hi : i < 624
    · rw [hx' i hi, rd _ hlen i hi, hT.unique hw i hi]
    · rw [Memory.read_outside (twistFirst_wf (arrayFrom_wf (by omega)) hm') (by omega),
        Memory.read_outside (arrayFrom_wf (by omega)) (by omega)]
  rw [hm', he]

end Sys2Proof.Machine
end

