-- ==== Sys2Proof/Laws/PerInstr.lean ====
section
/-! SUPPORT. Statements about every command as syntax, one lemma per constructor. -/

namespace Sys2Proof.Laws.LegalEncoding

/-- The word of the command selects a command (R42, R45): no command is encoded under a reserved opcode. -/
def Statement (i : Instr) : Prop := i.wellFormed = true → CommandWord.legal (encode i) = true

theorem legal_pack {op : BitVec 4} (h : 1 ≤ op.toNat ∧ op.toNat ≤ 6) (a b : Word) :
    CommandWord.legal (packCommand op a b) = true := by
  have hq : (packCommand op a b).toNat / 2 ^ 64 = op.toNat := by
    have ha := a.isLt
    have hb := b.isLt
    rw [pack_toNat]
    omega
  simp only [CommandWord.legal, hq, h.1, h.2, decide_true, Bool.and_self]

theorem mix (a b : Word) : Statement (.mix a b) := fun _ => legal_pack (by decide) a b
theorem init (seed : Word) : Statement (.init seed) := fun _ => legal_pack (by decide) seed 0
theorem twist : Statement .twist := fun _ => legal_pack (by decide) 0 0
theorem next : Statement .next := fun _ => legal_pack (by decide) 0 0
theorem temper (y : Word) : Statement (.temper y) := fun _ => legal_pack (by decide) y 0
theorem new (seed : Word) : Statement (.new seed) := fun _ => legal_pack (by decide) seed 0

end Sys2Proof.Laws.LegalEncoding
end

