-- ==== Sys2Proof/Laws/Step.lean ====
section
/-! SUPPORT. What one step can do. -/

namespace Sys2Proof.Machine

/-- Everything a step can do when it answers a next state (R53, R54). -/
theorem step_next_cases {s t : State} (h : step s = .next t) :
    (s.inputs = [] ∧ t = s) ∨
    (∃ w rest, s.inputs = .command w :: rest ∧ s.response.isSome ∧ t = s) ∨
    (∃ w rest, s.inputs = .command w :: rest ∧ s.response = none ∧ runCommand w { s with inputs := rest } = .next t) ∨
    (∃ rest, s.inputs = .takeResponse :: rest ∧ t = { s with inputs := rest, response := none }) ∨
    (∃ e rest, s.inputs = .entropy e :: rest ∧ t = { s with inputs := rest, entropy := e }) ∨
    (∃ rest, s.inputs = .reset :: rest ∧ t = resetBlock { s with inputs := rest }) := by
  unfold step serve at h
  split at h
  next hi => cases h; exact .inl ⟨hi, rfl⟩
  next w rest hi =>
    split at h
    next hr => exact .inr (.inr (.inl ⟨w, rest, hi, by simpa [ready] using hr, h⟩))
    next hr =>
      cases h
      refine .inr (.inl ⟨w, rest, hi, ?_, rfl⟩)
      cases hs : s.response <;> simp_all [ready]
  next rest hi => cases h; exact .inr (.inr (.inr (.inl ⟨rest, hi, rfl⟩)))
  next e rest hi => cases h; exact .inr (.inr (.inr (.inr (.inl ⟨e, rest, hi, rfl⟩))))
  next rest hi => cases h; exact .inr (.inr (.inr (.inr (.inr ⟨rest, hi, rfl⟩))))

/-- What an accepted command word does when it answers a next state: its command, or `ERR_ILLEGAL`. -/
theorem runCommand_next {w : CommandWord} {s t : State} (h : runCommand w s = .next t) :
    (∃ i, decode w = .ok i ∧ exec i s = .next t) ∨ (∃ e, decode w = .error e ∧ t = raise .illegal s) := by
  unfold runCommand at h
  cases hd : decode w with
  | ok i => rw [hd] at h; exact .inl ⟨i, rfl, h⟩
  | error e => rw [hd] at h; cases h; exact .inr ⟨e, rfl, rfl⟩

/-- The step of an engine ready for the command word the host presents. -/
theorem step_of_command {s : State} {w : CommandWord} {rest : List HostInput} (hr : s.response = none)
    (hi : s.inputs = .command w :: rest) : step s = runCommand w { s with inputs := rest } := by
  simp [step, serve, hi, ready, hr]

end Sys2Proof.Machine
end

