-- ==== Sys2Proof/Tests/Slice0.lean ====
section
/-! SUPPORT. Tests of the model on fixed values, and for every obligation with hypotheses a witness that meets them. The
expected values are those of spec/95_test_vectors.md, named by their V- numbers, or of the rule named. -/

namespace Sys2Proof.Tests

-- The kernel's evaluations one after another: run side by side each takes a thread, and their stacks exhaust the memory.
set_option Elab.async false

open Sys2Proof Sys2Proof.Machine

/-! ## Well-formedness refuses what is ill formed -/

theorem test_word_opcode_zero_not_legal : CommandWord.legal 0x00000000000000000 = false := by decide

theorem test_word_opcode_seven_not_legal : CommandWord.legal 0x70000000000000000 = false := by decide

theorem test_word_opcode_six_legal : CommandWord.legal 0x6FFFFFFFFFFFFFFFF = true := by decide

theorem test_word_ignored_field_not_canonical :
    CommandWord.canonical 0x2012BD6AADEADBEEF = false ∧ CommandWord.canonical 0x3FFFFFFFFFFFFFFFF = false ∧
    CommandWord.canonical 0x40000000100000000 = false ∧ CommandWord.canonical 0x51234567800000001 = false ∧
    CommandWord.canonical 0x60000000000001571 = false ∧ CommandWord.canonical 0xF0000000000000000 = false := by decide

theorem test_word_canonical : CommandWord.canonical 0x2012BD6AA00000000 = true := by decide

theorem test_error_response_with_data_not_well_formed : Response.wellFormed ⟨.err .entropy, 1⟩ = false := by decide

theorem test_line_operand_count_not_well_formed :
    AsmLine.wellFormed ⟨.mix, [1]⟩ = false ∧ AsmLine.wellFormed ⟨.init, []⟩ = false ∧
    AsmLine.wellFormed ⟨.twist, [0]⟩ = false ∧ AsmLine.wellFormed ⟨.next, [5]⟩ = false ∧
    AsmLine.wellFormed ⟨.temper, [1, 2]⟩ = false ∧ AsmLine.wellFormed ⟨.new, [1, 2]⟩ = false := by decide

theorem test_line_operand_range_not_well_formed :
    AsmLine.wellFormed ⟨.init, [4294967296]⟩ = false ∧ AsmLine.wellFormed ⟨.init, [4294967295]⟩ = true := by decide

theorem test_memory_descending_not_wf : ¬ Memory.wf [(5, 0), (4, 0)] := by decide

theorem test_memory_outside_not_wf : ¬ Memory.wf [(624, 0)] := by decide

/-! ## Decoding: one word per command, and the reserved opcodes (V-ENC-1 to V-ENC-15) -/

theorem test_decode_mix : decode 0x1123456789ABCDEF0 = .ok (.mix 0x12345678 0x9ABCDEF0) := by decide

theorem test_decode_init : decode 0x2012BD6AADEADBEEF = .ok (.init 19650218) := by decide

theorem test_decode_twist : decode 0x3FFFFFFFFFFFFFFFF = .ok .twist := by decide

theorem test_decode_next : decode 0x40000000100000000 = .ok .next := by decide

theorem test_decode_temper : decode 0x51234567800000000 = .ok (.temper 0x12345678) := by decide

theorem test_decode_new : decode 0x60000000000001571 = .ok (.new 0) ∧ decode 0x60000157100000000 = .ok (.new 5489) := by
  decide

theorem test_decode_reserved :
    decode 0x00000000000000000 = .error (.reservedOpcode 0) ∧ decode 0x70000000000000000 = .error (.reservedOpcode 7) ∧
    decode 0x8123456789ABCDEF0 = .error (.reservedOpcode 8) ∧ decode 0x9123456789ABCDEF0 = .error (.reservedOpcode 9) ∧
    decode 0xA123456789ABCDEF0 = .error (.reservedOpcode 10) ∧
    decode 0xB123456789ABCDEF0 = .error (.reservedOpcode 11) ∧
    decode 0xC123456789ABCDEF0 = .error (.reservedOpcode 12) ∧
    decode 0xD123456789ABCDEF0 = .error (.reservedOpcode 13) ∧
    decode 0xE123456789ABCDEF0 = .error (.reservedOpcode 14) ∧
    decode 0xFFFFFFFFFFFFFFFFF = .error (.reservedOpcode 15) := by decide

/-- The words of part 3, program P1, and V-ENC-8. -/
theorem test_encode :
    encode (.mix 0x12345678 0x9ABCDEF0) = 0x1123456789ABCDEF0 ∧ encode (.init 5489) = 0x20000157100000000 ∧
    encode .twist = 0x30000000000000000 ∧ encode .next = 0x40000000000000000 ∧
    encode (.temper 0x12345678) = 0x51234567800000000 ∧ encode (.new 5489) = 0x60000157100000000 := by decide

theorem test_decode_table_word :
    decodeTableWord 72 0x20000157100000000 = some (.init 5489) ∧ decodeTableWord 72 0x70000000000000000 = none ∧
    decodeTableWord 68 0x40000000000000000 = some .next := by decide

/-- Section 2.1: the four response words it writes out. -/
theorem test_response_words :
    Response.toWord ⟨.ok, 0x98966965⟩ = 0x098966965 ∧ Response.toWord ⟨.err .entropy, 0⟩ = 0x100000000 ∧
    Response.toWord ⟨.err .unseeded, 0⟩ = 0x200000000 ∧ Response.toWord ⟨.err .illegal, 0⟩ = 0x300000000 := by decide

/-! ## The assembler (30_encoding.md R51, R52) -/

theorem test_assemble_new_alone : assemble "NEW" = .ok [.new 0] := by decide +kernel

/-- Program P1's first lines, with its comments. -/
theorem test_assemble_lines :
    assemble "INIT 5489      # 0x2_00001571_00000000\nNEXT           # 0x4_00000000_00000000" =
      .ok [.init 5489, .next] := by decide +kernel

theorem test_assemble_errors :
    assemble "MIX 1" = .error .operandCount ∧ assemble "INIT 4294967296" = .error .operandRange ∧
    assemble "JUMP 1" = .error .unknownMnemonic ∧ assemble "INIT 0xZ" = .error .malformedOperand := by decide +kernel

/-! ## Small states -/

/-- The response a command leaves, if it answers a next state. -/
def responseAfter : Host.Outcome State Fault Refusal → Option Response
  | .next t => t.response
  | .fault _ => none
  | .refused _ => none

/-- A fresh generator (R19) of a seed, from reset. -/
def fresh (seed : Word) : State := construct seed State.reset

/-- That generator with the cursor moved. -/
def freshAt (seed : Word) (k : Fin 625) : State := { fresh seed with idx := k }

/-- A seeded state from the words of its array. -/
def withArray (ws : List Word) : State := { State.reset with mt := arrayFrom 0 ws, seeded := true }

/-- The samples of V-DRV-1, the hardware sample there. -/
def samples : Entropy := { hw := 0xDEADBEEF, hwOk := true, wall := 0x5F3759DF, perf := 0x00C0FFEE, cyc := 0x0BADF00D }

/-- Reset with those samples at the entropy inputs. -/
def sampled : State := { State.reset with entropy := samples }

/-- Reset with a response pending. -/
def pending : State := { State.reset with response := some ⟨.ok, 7⟩ }

theorem reset_inv : State.reset.Inv := ⟨by decide, fun h => by cases h⟩

theorem fresh_holds (seed : Word) : (fresh seed).Holds (seedWord seed) := fun i hi => by
  rw [fresh, construct_mt, initArray_read, if_pos hi]

theorem fresh_inv (seed : Word) : (fresh seed).Inv :=
  ⟨initArray_wf reset_inv.1 seed, fun _ i hi => by rw [fresh_holds seed i hi]; rfl⟩

theorem withArray_holds {ws : List Word} (h : ws.length = 624) : (withArray ws).Holds fun i => ws[i]?.getD 0 :=
  fun i hi => by
    rw [withArray, arrayFrom_read, if_pos (Nat.zero_le i), Nat.sub_zero, List.getElem?_eq_getElem (by omega)]
    simp [List.getElem?_eq_getElem (h ▸ hi : i < ws.length)]

/-- Memory right after reset is in canonical form. -/
theorem test_reset_memory_wf : State.reset.mt.wf := by decide

/-! ## MIX and the seed derivation (V-MIX-1, V-MIX-9, V-MIX-10, V-DRV-1, V-DRV-2, V-DRV-4) -/

theorem test_mix : responseAfter (exec (.mix 0x12345678 0x9ABCDEF0) State.reset) = some ⟨.ok, 0x98966965⟩ := by
  decide +kernel

theorem test_mix_byte_order :
    mix .default 0x000000FF 0 = 0xFEE87625 ∧ mix .default 0xFF000000 0 = 0x2A011465 := by decide +kernel

theorem test_derive_seed :
    deriveSeed .default samples = 0x8F9943C5 ∧ deriveSeed .default { samples with perf := 0x11111111 } = 0x8F9943C5 ∧
    mixed1 .default samples = 0xE0E54879 ∧ mixed2 .default samples = 0x54EBA2A9 := by decide +kernel

theorem test_derive_seed_sum_wraps :
    deriveSeed .default { hw := 0xFFFFFFFF, hwOk := true, wall := 1, perf := 7, cyc := 7 } = 0x303FAFD9 := by
  decide +kernel

/-! ## INIT (V-INIT-3, V-INIT-5) -/

/-- The `xor` and `add` columns of section 2: the words of an array combined. -/
def checksums (ws : List Word) : Word × Word := (ws.foldl (· ^^^ ·) 0, ws.foldl (· + ·) 0)

theorem test_init_5489 :
    (exec (.init 5489) State.reset) = .next (respond .ok 0 { State.reset with
      mt := arrayFrom 0 (seedList 623 0 5489), idx := Config.idxExhausted, seeded := true }) ∧
    checksums (seedList 623 0 5489) = (0x733AD0A9, 0x025F71C1) ∧ (seedList 623 0 5489)[623]? = some 0x04C46D8C := by
  refine ⟨?_, by decide +kernel⟩
  rw [exec, execInit, construct, initArray_eq_list reset_inv.1]

theorem test_init_all_ones :
    checksums (seedList 623 0 0xFFFFFFFF) = (0x1BF600D4, 0x8862150E) ∧
    (seedList 623 0 0xFFFFFFFF)[1]? = some 0x4FE1DA6D := by decide +kernel

/-! ## TWIST (V-TW-1, V-TW-3, V-TW-4) -/

/-- After INIT 5489 and one TWIST, with words 227 and 623 as the in-place pass leaves them and not as V-TW-2 has them. -/
theorem test_twist_5489 :
    exec .twist (fresh 5489) = .next (respond .ok 0 { fresh 5489 with
      mt := arrayFrom 0 (twistList (seedList 623 0 5489)), idx := 0 }) ∧
    checksums (twistList (seedList 623 0 5489)) = (0x86A5EF28, 0x6E7718F2) ∧
    (twistList (seedList 623 0 5489))[227]? = some 0x53E4F8A7 ∧
    (twistList (seedList 623 0 5489))[623]? = some 0xD1B102B7 := by
  refine ⟨?_, by decide +kernel⟩
  rw [exec, execTwist_eq, if_pos (show (fresh 5489).seeded = true from rfl), fresh, construct_mt, initArray_eq_list reset_inv.1,
    twistFirst_eq_list (by decide +kernel)]

theorem test_three_twists_of_seed_1 :
    checksums (twistList (twistList (twistList (seedList 623 0 1)))) = (0x765DBB02, 0xCCD1FFCE) := by decide +kernel

/-! ## TEMPER (V-TMP-1, V-TMP-3) -/

theorem test_temper : responseAfter (exec (.temper 0x12345678) State.reset) = some ⟨.ok, 0x2B7E4A2D⟩ := by
  decide +kernel

theorem test_temper_all_ones : temper 0xFFFFFFFF = 0x6FE01BF8 := by decide +kernel

/-! ## NEXT (V-NEXT-3, V-ERR-1) -/

/-- The first output of seed 5489: NEXT twists, tempers word 0 and leaves `IDX` = 1. -/
theorem test_next_5489 :
    exec .next (fresh 5489) = .next (respond .ok 0xD091BB5C { fresh 5489 with
      mt := arrayFrom 0 (twistList (seedList 623 0 5489)), idx := 1 }) := by
  have hr : memRead (arrayFrom 0 (twistList (seedList 623 0 5489))) 0 = .ok 0x9B0AFA27 := memRead_eq_ok.2 (by
    rw [arrayFrom_read, if_pos (Nat.zero_le _)]
    decide +kernel)
  have ht : temper 0x9B0AFA27 = 0xD091BB5C := by decide +kernel
  rw [exec, execNext_of_exhausted rfl rfl, fresh, construct_mt, initArray_eq_list reset_inv.1,
    twistFirst_eq_list (by decide +kernel)]
  simp only [hr, ht]

theorem test_next_unseeded : responseAfter (exec .next State.reset) = some ⟨.err .unseeded, 0⟩ := by decide +kernel

/-! ## NEW (V-NEW-2, V-NEW-5) -/

theorem test_new_auto_seed :
    exec (.new 0) sampled = exec (.init 0x8F9943C5) sampled ∧
    checksums (seedList 623 0 0x8F9943C5) = (0x669CC4D0, 0xDB95B7DA) := by
  refine ⟨?_, by decide +kernel⟩
  have h : deriveSeed sampled.params sampled.entropy = 0x8F9943C5 := test_derive_seed.1
  rw [exec, exec, execInit, ← h]
  rcases execNew_cases 0 sampled with ⟨-, hk, -⟩ | ⟨-, -, e⟩ | ⟨hn, -⟩
  · cases hk
  · exact e
  · exact absurd rfl hn

theorem test_new_without_sample :
    exec (.new 0) State.reset = .next { State.reset with response := some ⟨.err .entropy, 0⟩ } := rfl

/-! ## The step (V-ERR-1, V-ERR-6; 70_reset_and_hazards.md R111) -/

theorem test_step_from_reset :
    step (State.reset.withFetchWord 72 0x40000000000000000) =
      .next { State.reset with response := some ⟨.err .unseeded, 0⟩ } := rfl

theorem test_step_reserved_opcode :
    step (State.reset.withFetchWord 72 0x00000000000000000) =
      .next { State.reset with response := some ⟨.err .illegal, 0⟩ } := rfl

/-! ## Witnesses: states and operands that meet the hypotheses of the obligations, clause by clause -/

theorem witness_DecodeAndEncodeAgree :
    decode 0x2012BD6AA00000000 = .ok (.init 19650218) ∧ CommandWord.canonical 0x2012BD6AA00000000 = true ∧
    decode 0x2012BD6AADEADBEEF = .ok (.init 19650218) ∧ CommandWord.canonical 0x2012BD6AADEADBEEF = false := by decide

theorem witness_IgnoredFieldsHaveNoEffect :
    ((0x2#4 = 0x2 ∨ 0x2#4 = 0x5 ∨ 0x2#4 = 0x6) ∧ (0x6#4 = 0x2 ∨ 0x6#4 = 0x5 ∨ 0x6#4 = 0x6)) ∧
    ((0x3#4 = 0x3 ∨ 0x3#4 = 0x4) ∧ (0x4#4 = 0x3 ∨ 0x4#4 = 0x4)) := by decide

/-- The words at the two ends of the array. -/
theorem witness_ReadsReturnTheLastWrite : (0 : Fin 624) ≠ 623 := by decide

/-- Each clause at both ends of its range. -/
theorem witness_ArrayAddressForms :
    (0 < 624 ∧ 623 < 624) ∧ ((0 : Fin 624).val ≤ 622 ∧ (622 : Fin 624).val ≤ 622) ∧ (623 : Fin 624).val = 623 ∧
    ((0 : Fin 624).val ≤ 226 ∧ (226 : Fin 624).val ≤ 226) ∧ 227 ≤ (227 : Fin 624).val ∧ 227 ≤ (623 : Fin 624).val := by
  decide

/-- A constructed engine whose host asserts `rst`: the step clears `SEEDED`. -/
theorem witness_OnlyResetClearsSeeded :
    ∃ s t : State, s.inputs = .reset :: [] ∧ step s = .next t ∧ s.seeded = true ∧ t.seeded = false :=
  ⟨{ fresh 1 with inputs := [.reset] }, _, rfl, rfl, rfl, rfl⟩

/-- From reset, an INIT at the port, and INIT and NEW as commands. -/
theorem witness_OnlyConstructionSetsSeeded :
    (∃ s t : State, step s = .next t ∧ s.seeded = false ∧ t.seeded = true) ∧
    (∃ t, exec (.init 0) State.reset = .next t) ∧
    (∃ t, exec (.new 1) State.reset = .next t ∧ t.response = some ⟨.ok, 0⟩) := by
  refine ⟨⟨presentCommand (encode (.init 0)) State.reset, respond .ok 0 (construct 0 State.reset), ?_, rfl, rfl⟩,
    ⟨_, rfl⟩, ?_⟩
  · rw [step_of_command rfl rfl, runCommand, show decode (encode (.init 0)) = .ok (.init 0) by decide]; rfl
  · rcases execNew_cases 1 State.reset with ⟨h, -⟩ | ⟨h, -⟩ | ⟨-, e⟩
    · exact absurd h (by decide)
    · exact absurd h (by decide)
    · exact ⟨_, e, rfl⟩

/-- Reset, and reset with a word written into its array: no generator, and INIT makes one. -/
theorem witness_UnspecifiedWordsUnobservable :
    State.reset.seeded = false ∧ (∃ t, exec (.init 1) State.reset = .next t ∧ t.seeded = true) ∧
    { State.reset with mt := [(0, 5)] } ≠ State.reset := ⟨rfl, ⟨_, rfl, rfl⟩, by decide⟩

theorem witness_StepRunsTheDecodedCommand :
    (presentCommand 0x20000000100000000 State.reset).Presents 0x20000000100000000 [] ∧
    decode 0x20000000100000000 = .ok (.init 1) := ⟨⟨rfl, rfl⟩, by decide⟩

theorem witness_PortTransactions :
    State.reset.inputs = [] ∧
    (∃ s : State, s.inputs = [.command 0x40000000000000000] ∧ s.response = some ⟨.ok, 7⟩) ∧
    (∃ s : State, s.inputs = [.takeResponse] ∧ s.response = some ⟨.ok, 7⟩) ∧
    (∃ s : State, s.inputs = [.entropy samples] ∧ s.entropy ≠ samples) :=
  ⟨rfl, ⟨{ pending with inputs := [.command 0x40000000000000000] }, rfl, rfl⟩,
    ⟨{ pending with inputs := [.takeResponse] }, rfl, rfl⟩,
    ⟨{ State.reset with inputs := [.entropy samples] }, rfl, by decide⟩⟩

/-- The invariant holds with and without a generator, and such states step. -/
theorem witness_StepKeepsInvariant :
    (State.reset.Inv ∧ ∃ t, step State.reset = .next t) ∧
    ((presentCommand 0x51234567800000000 (fresh 1)).Inv ∧ (fresh 1).seeded = true ∧
      ∃ t, step (presentCommand 0x51234567800000000 (fresh 1)) = .next t) := by
  refine ⟨⟨reset_inv, _, rfl⟩, fresh_inv 1, rfl, ?_⟩
  rw [step_of_command rfl rfl, runCommand, show decode 0x51234567800000000 = .ok (.temper 0x12345678) by decide]
  exact ⟨_, rfl⟩

theorem witness_InvariantStatesNeverStop :
    (presentCommand 0x40000000000000000 (fresh 1)).Inv ∧
    (presentCommand 0x40000000000000000 (fresh 1)).Presents 0x40000000000000000 [] := ⟨fresh_inv 1, rfl, rfl⟩

theorem witness_HostProgramRunsInOrder :
    ∃ s : State, s.Inv ∧ s.response = none ∧ s.inputs = hostProgram [.init 1, .next, .twist] ++ [.reset] :=
  ⟨{ State.reset with inputs := hostProgram [.init 1, .next, .twist] ++ [.reset] }, reset_inv, rfl, rfl⟩

/-- One word of each error, from reset. -/
theorem witness_ErrorsChangeNothing :
    responseAfter (runCommand 0xF0000000000000000 State.reset) = some ⟨.err .illegal, 0⟩ ∧
    responseAfter (runCommand 0x40000000000000000 State.reset) = some ⟨.err .unseeded, 0⟩ ∧
    responseAfter (runCommand 0x60000000000000000 State.reset) = some ⟨.err .entropy, 0⟩ := by decide +kernel

theorem witness_UnseededRefusal :
    State.reset.seeded = false ∧
    (∃ t, runCommand 0x40000000000000000 State.reset = .next t ∧ t.response = some ⟨.err .unseeded, 0⟩) ∧
    (∃ t, runCommand 0x30000000000000000 State.reset = .next t ∧ t.response = some ⟨.err .unseeded, 0⟩) ∧
    (∃ t, step (fresh 1) = .next t ∧ (fresh 1).seeded = true ∧ ∀ rest, (fresh 1).inputs ≠ .reset :: rest) :=
  ⟨rfl, ⟨_, rfl, rfl⟩, ⟨_, rfl, rfl⟩, _, rfl, rfl, fun _ h => by cases h⟩

/-- The reserved opcodes at the ends of both ranges, and the legal ones at the ends of theirs. -/
theorem witness_ReservedOpcodesAreIllegal :
    ((0x0#4 = 0x0 ∨ 0x7 ≤ (0x0#4).toNat) ∧ (0x7#4 = 0x0 ∨ 0x7 ≤ (0x7#4).toNat) ∧
      (0xF#4 = 0x0 ∨ 0x7 ≤ (0xF#4).toNat)) ∧
    (0x1 ≤ (0x1#4).toNat ∧ (0x1#4).toNat ≤ 0x6 ∧ ∃ t, runCommand (0x1#4 ++ 0#32 ++ 0#32) State.reset = .next t) ∧
    (0x1 ≤ (0x6#4).toNat ∧ (0x6#4).toNat ≤ 0x6 ∧ ∃ t, runCommand (0x6#4 ++ 0#32 ++ 0#32) State.reset = .next t) := by
  refine ⟨by decide, ⟨by decide, by decide, ?_⟩, by decide, by decide, ?_⟩
  · rw [runCommand, show decode (0x1#4 ++ 0#32 ++ 0#32) = .ok (.mix 0 0) by decide]; exact ⟨_, rfl⟩
  · rw [runCommand, show decode (0x6#4 ++ 0#32 ++ 0#32) = .ok (.new 0) by decide]; exact ⟨_, rfl⟩

theorem witness_EntropyFailure :
    State.reset.entropy.hwOk = false ∧
    ∃ t, runCommand 0x60000000000000000 State.reset = .next t ∧ t.response = some ⟨.err .entropy, 0⟩ :=
  ⟨rfl, _, rfl, rfl⟩

/-- A presented word for each row of the table: illegal at 0x0, 0x7 and 0xF, unseeded, no sample, and no error. -/
theorem witness_CompleteTableOfOutcomes :
    (∀ w : CommandWord, (presentCommand w State.reset).Inv ∧ (presentCommand w State.reset).Presents w []) ∧
    (∀ w : CommandWord, (presentCommand w (fresh 1)).Inv ∧ (presentCommand w (fresh 1)).Presents w []) ∧
    responseAfter (step (presentCommand (0x0#4 ++ 0#32 ++ 0#32) State.reset)) = some ⟨.err .illegal, 0⟩ ∧
    responseAfter (step (presentCommand (0x7#4 ++ 0#32 ++ 0#32) State.reset)) = some ⟨.err .illegal, 0⟩ ∧
    responseAfter (step (presentCommand (0xF#4 ++ 0#32 ++ 0#32) State.reset)) = some ⟨.err .illegal, 0⟩ ∧
    responseAfter (step (presentCommand (0x3#4 ++ 0#32 ++ 0#32) State.reset)) = some ⟨.err .unseeded, 0⟩ ∧
    responseAfter (step (presentCommand (0x6#4 ++ 0#32 ++ 0#32) State.reset)) = some ⟨.err .entropy, 0⟩ ∧
    responseAfter (step (presentCommand (0x1#4 ++ 0#32 ++ 0#32) State.reset)) = some ⟨.ok, 0x69691905⟩ :=
  ⟨fun _ => ⟨reset_inv, rfl, rfl⟩, fun _ => ⟨fresh_inv 1, rfl, rfl⟩, by decide +kernel⟩

theorem witness_MixRespondsWithTheHash : State.reset.params = ⟨0x811C9DC5, 0x01000193⟩ := rfl

theorem witness_AutoSeedIsInitOfTheDerivedSeed : sampled.entropy.hwOk = true := rfl

/-- V-DRV-1 and V-DRV-5: the two samples exchanged, another performance counter. -/
theorem witness_DerivedSeedDependsOnSumAndCycles :
    ∃ e e' : Entropy, e ≠ e' ∧ e.hwOk = e'.hwOk ∧ e.hw + e.wall = e'.hw + e'.wall ∧ e.cyc = e'.cyc :=
  ⟨samples, { samples with hw := 0x5F3759DF, wall := 0xDEADBEEF, perf := 7 }, by decide⟩

theorem witness_EntropyIsReadByAutoSeedOnly :
    (Instr.new 1 ≠ .new 0 ∧ ∃ t, exec (.new 1) sampled = .next t) ∧
    (∃ t, exec .twist sampled = .next t) ∧
    (State.reset.entropy.hwOk = false ∧ { samples with hwOk := false }.hwOk = false ∧
      State.reset.entropy ≠ { samples with hwOk := false }) :=
  ⟨⟨by decide, _, rfl⟩, ⟨_, rfl⟩, rfl, rfl, by decide⟩

/-- A fresh engine and one running another seed; an explicit and an automatic NEW. -/
theorem witness_ConstructionForgetsThePast :
    (fresh 1).mt.wf ∧ (freshAt 2 3).mt.wf ∧ (freshAt 2 3).entropy = (fresh 1).entropy ∧
    (freshAt 2 3).inputs = (fresh 1).inputs ∧ (freshAt 2 3).params = (fresh 1).params ∧
    (1#32 ≠ 0 ∨ (fresh 1).entropy.hwOk = true) ∧ (0#32 ≠ 0 ∨ sampled.entropy.hwOk = true) :=
  ⟨(fresh_inv 1).1, (fresh_inv 2).1, rfl, rfl, rfl, by decide, .inr rfl⟩

theorem witness_ExplicitNewIsInit : (1 : Word) ≠ 0 ∧ (0xFFFFFFFF : Word) ≠ 0 := by decide

/-- An array of three words for each iteration 0, 226, 227 and 623, and words that differ in the bits left out. -/
theorem witness_TwistIteration :
    (memRead [(0, 1), (1, 2), (397, 3)] 0 = .ok 1 ∧ memRead [(0, 1), (1, 2), (397, 3)] 1 = .ok 2 ∧
      memRead [(0, 1), (1, 2), (397, 3)] 397 = .ok 3) ∧
    (memRead [(0, 2), (396, 3), (623, 1)] 623 = .ok 1 ∧
      memRead [(0, 2), (396, 3), (623, 1)] ⟨(623 + 1) % 624, Nat.mod_lt _ (by decide)⟩ = .ok 2 ∧
      memRead [(0, 2), (396, 3), (623, 1)] ⟨(623 + 397) % 624, Nat.mod_lt _ (by decide)⟩ = .ok 3) ∧
    ((0x80000000#32).getLsbD 31 = (0xFFFFFFFF#32).getLsbD 31 ∧
      ∀ k : Nat, k < 31 → (0x00000005#32).getLsbD k = (0x80000005#32).getLsbD k) := by decide +kernel

/-- A fresh generator, and a twisted array would do as well: any array whose words all hold values. -/
theorem witness_TwistIsTheInPlacePass : (fresh 5489).seeded = true ∧ (fresh 5489).Holds (seedWord 5489) :=
  ⟨rfl, fresh_holds 5489⟩

theorem witness_TwistIgnoresTheCursor :
    (fresh 1).seeded = true ∧
    ∃ s : State, s.seeded = true ∧ s.Holds (fun _ => 0) := by
  refine ⟨rfl, withArray (List.replicate 624 0), rfl, fun i hi => ?_⟩
  have h := withArray_holds (ws := List.replicate 624 0) List.length_replicate i hi
  simp only [List.getElem?_replicate, hi, if_true, Option.getD_some] at h
  exact h

theorem witness_TemperRespondsWithTheTransform :
    (0x123610F2 : Word) = 0x12345678 ^^^ (0x12345678 >>> 11) ∧
    (0x0B3E40F2 : Word) = 0x123610F2 ^^^ ((0x123610F2 <<< 7) &&& 0x9D2C5680) ∧
    (0x2B7E40F2 : Word) = 0x0B3E40F2 ^^^ ((0x0B3E40F2 <<< 15) &&& 0xEFC60000) := by decide

/-- No generator; the cursor at the two ends of its range, 0 and 623; and at 624. -/
theorem witness_NextReturnsTheTemperedWord :
    State.reset.seeded = false ∧ ((freshAt 1 0).seeded = true ∧ (freshAt 1 0).idx.val < 624 ∧
      (freshAt 1 0).mt.read (freshAt 1 0).idx.val = some (seedWord 1 0)) ∧
    ((freshAt 1 623).seeded = true ∧ (freshAt 1 623).idx.val < 624 ∧
      (freshAt 1 623).mt.read (freshAt 1 623).idx.val = some (seedWord 1 623)) ∧
    ((fresh 1).seeded = true ∧ (fresh 1).idx.val = 624 ∧ (fresh 1).Holds (seedWord 1)) :=
  ⟨rfl, ⟨rfl, by decide, fresh_holds 1 0 (by decide)⟩, ⟨rfl, by decide, fresh_holds 1 623 (by decide)⟩, rfl, rfl,
    fresh_holds 1⟩

theorem witness_TwistThenNextIsNext :
    (fresh 1).seeded = true ∧ (fresh 1).idx.val = 624 ∧ (fresh 1).Holds (seedWord 1) := ⟨rfl, rfl, fresh_holds 1⟩

/-- Each command completes: on reset, and TWIST and NEXT on a constructed engine with the cursor at 0, 623 and 624. -/
theorem witness_TransitionTable :
    (∃ t, exec (.mix 1 2) State.reset = .next t) ∧ (∃ t, exec (.temper 1) State.reset = .next t) ∧
    (∃ t, exec (.init 1) State.reset = .next t) ∧ (∃ t, exec (.new 1) State.reset = .next t) ∧
    (∃ t, exec (.new 0) State.reset = .next t) ∧ (∃ t, exec (.new 0) sampled = .next t) ∧
    (∃ t, exec .twist State.reset = .next t) ∧ (∃ t, exec .next State.reset = .next t) ∧
    (∀ k : Fin 625, (∃ t, exec .twist (freshAt 1 k) = .next t) ∧ ∃ t, exec .next (freshAt 1 k) = .next t) := by
  refine ⟨⟨_, rfl⟩, ⟨_, rfl⟩, ⟨_, rfl⟩, ⟨_, rfl⟩, ⟨_, rfl⟩, ⟨_, rfl⟩, ⟨_, rfl⟩, ⟨_, rfl⟩, fun k => ⟨?_, ?_⟩⟩
  · obtain ⟨m, -, -, e⟩ := execTwist_defined (s := freshAt 1 k) rfl ((fresh_inv 1).2 rfl)
    exact ⟨_, e⟩
  · obtain ⟨i, t₁, w, -, -, e⟩ := execNext_defined (s := freshAt 1 k) rfl ((fresh_inv 1).2 rfl)
    exact ⟨_, e⟩

/-- Each clause's command: MIX, TEMPER, an error, and NEXT with the cursor at 623. -/
theorem witness_WriteSets :
    (∃ t, exec (.mix 1 2) State.reset = .next t) ∧ (∃ t, exec (.temper 1) State.reset = .next t) ∧
    (∃ t, exec .next State.reset = .next t ∧ t.response = some ⟨.err .unseeded, 0⟩) ∧
    ((freshAt 1 623).idx.val < 624 ∧ ∃ t, exec .next (freshAt 1 623) = .next t) :=
  ⟨⟨_, rfl⟩, ⟨_, rfl⟩, ⟨_, rfl, rfl⟩, by decide, (witness_TransitionTable.2.2.2.2.2.2.2.2 623).2⟩

theorem witness_StepKeepsTheParameters :
    ∃ s t : State, step s = .next t ∧ ∀ e rest, s.inputs ≠ .entropy e :: rest :=
  ⟨State.reset, State.reset, rfl, fun _ _ h => by cases h⟩

/-- A seed other than 0, for the clause about NEW. -/
theorem witness_OutputSequenceOfASeed : (1 : Word) ≠ 0 := by decide

/-- A fresh generator, with `n` at both sides of a twist. -/
theorem witness_PeriodStructure :
    (fresh 1).seeded = true ∧ (fresh 1).idx.val = 624 ∧ (fresh 1).Holds (seedWord 1) ∧
    (1 ≤ 1 ∧ 1 % 624 = 1) ∧ (1 ≤ 624 ∧ 624 % 624 ≠ 1) ∧ (1 ≤ 625 ∧ 625 % 624 = 1) :=
  ⟨rfl, rfl, fresh_holds 1, by decide, by decide, by decide⟩

end Sys2Proof.Tests
end

section
/-! Scope (00_scope.md): what a step leaves of the open parameters and the entropy inputs. -/

namespace Sys2Proof.Machine

/-- An accepted command word, legal or not, leaves the host's side of the state as it was, and is answered. -/
theorem runCommand_next_host {w : CommandWord} {s t : State} (h : runCommand w s = .next t) :
    t.entropy = s.entropy ∧ t.inputs = s.inputs ∧ t.params = s.params ∧ t.response.isSome := by
  rcases runCommand_next h with ⟨i, -, hx⟩ | ⟨e, -, rfl⟩
  · exact exec_next_host hx
  · simp

/-- Settles O42: of the host's transactions only a change of the entropy inputs writes them, none writes the open
parameters, and a command writes neither. -/
theorem stepKeepsTheParameters : Obligations.StepKeepsTheParameters := by
  intro s t h
  rcases step_next_cases h with ⟨-, rfl⟩ | ⟨w, rest, -, -, rfl⟩ | ⟨w, rest, -, -, hrun⟩ | ⟨rest, -, rfl⟩ |
    ⟨e, rest, hi, rfl⟩ | ⟨rest, -, rfl⟩
  · exact ⟨rfl, fun _ => rfl⟩
  · exact ⟨rfl, fun _ => rfl⟩
  · obtain ⟨hentropy, -, hparams, -⟩ := runCommand_next_host hrun
    exact ⟨hparams, fun _ => hentropy⟩
  · exact ⟨rfl, fun _ => rfl⟩
  · exact ⟨rfl, fun hne => absurd hi (hne e rest)⟩
  · exact ⟨resetBlock_params _, fun _ => resetBlock_entropy _⟩

end Sys2Proof.Machine
end

section
/-! The state (10_state.md): what a command can write of it, and what every step keeps. -/

namespace Sys2Proof.Machine

/-! ## What each command can write, and that it completes -/

/-- What NEW answers (R87): `ERR_ENTROPY` when its operand is 0 and the hardware sample is missing, else a fresh
generator. -/
theorem execNew_next {a : Word} {s t : State} (h : execNew a s = .next t) :
    ((a = 0 ∧ s.entropy.hwOk = false) ∧ t = raise .entropy s) ∨
    (¬ (a = 0 ∧ s.entropy.hwOk = false) ∧ ∃ seed, t = respond .ok 0 (construct seed s)) := by
  rcases execNew_cases a s with ⟨ha, hk, e⟩ | ⟨-, hk, e⟩ | ⟨ha, e⟩ <;> rw [e] at h <;> cases h
  · exact .inl ⟨⟨ha, hk⟩, rfl⟩
  · exact .inr ⟨by simp [hk], _, rfl⟩
  · exact .inr ⟨fun h => ha h.1, _, rfl⟩

/-- What NEXT can answer when it answers a next state (R79, R80), over the fields of the state it starts from. -/
theorem execNext_next_cases {s t : State} (h : execNext s = .next t) :
    (s.seeded = false ∧ t = raise .unseeded s) ∨
    (s.seeded = true ∧ s.idx.val < 624 ∧ ∃ (k : Fin 625) (w : Word), k.val = s.idx.val + 1 ∧
      s.mt.read s.idx.val = some w ∧ t = respond .ok (temper w) { s with idx := k }) ∨
    (s.seeded = true ∧ s.idx.val = 624 ∧ ∃ (m : Memory) (w : Word), twistFirst 624 s.mt = .ok m ∧
      m.read 0 = some w ∧ t = respond .ok (temper w) { s with mt := m, idx := 1 }) := by
  rcases execNext_next h with hu | ⟨hs, i, t₁, w, hr, hw, rfl⟩
  · exact .inl hu
  · rcases refresh_eq_ok hr with ⟨hlt, hi, rfl⟩ | ⟨heq, rfl, ht⟩
    · exact .inr (.inl ⟨hs, hlt, i.succ, w, by simp [hi], hi ▸ hw, rfl⟩)
    · obtain ⟨m, hm, rfl⟩ := twist_eq_ok.1 ht
      exact .inr (.inr ⟨hs, heq, m, w, hm, hw, rfl⟩)

/-- Everything a command can write (R25): the response alone, a fresh generator, or with a generator there the cursor,
with or without a twist of the array. -/
theorem exec_next_writes {i : Instr} {s t : State} (h : exec i s = .next t) :
    (∃ st d, t = respond st d s) ∨
    (∃ a seed, (i = .init a ∨ i = .new a) ∧ t = respond .ok 0 (construct seed s)) ∨
    (s.seeded = true ∧ ∃ k d, t = respond .ok d { s with idx := k }) ∨
    (s.seeded = true ∧ ∃ m k d, twistFirst 624 s.mt = .ok m ∧ t = respond .ok d { s with mt := m, idx := k }) := by
  cases i with
  | mix a b => cases h; exact .inl ⟨_, _, rfl⟩
  | init a => cases h; exact .inr (.inl ⟨a, a, .inl rfl, rfl⟩)
  | twist =>
    rcases execTwist_next h with ⟨-, rfl⟩ | ⟨hs, m, hm, rfl⟩
    · exact .inl ⟨_, _, rfl⟩
    · exact .inr (.inr (.inr ⟨hs, m, _, _, hm, rfl⟩))
  | next =>
    rcases execNext_next_cases h with ⟨-, rfl⟩ | ⟨hs, -, k, w, -, -, rfl⟩ | ⟨hs, -, m, w, hm, -, rfl⟩
    · exact .inl ⟨_, _, rfl⟩
    · exact .inr (.inr (.inl ⟨hs, _, _, rfl⟩))
    · exact .inr (.inr (.inr ⟨hs, m, _, _, hm, rfl⟩))
  | temper y => cases h; exact .inl ⟨_, _, rfl⟩
  | new a =>
    rcases execNew_next h with ⟨-, rfl⟩ | ⟨-, seed, rfl⟩
    · exact .inl ⟨_, _, rfl⟩
    · exact .inr (.inl ⟨a, seed, .inr rfl, rfl⟩)

/-- Every command completes in a state that meets the invariant (42_engine.md R83). -/
theorem exec_defined (i : Instr) {s : State} (hinv : s.Inv) : ∃ t, exec i s = .next t := by
  obtain ⟨-, hdef⟩ := hinv
  cases i with
  | mix a b => exact ⟨_, rfl⟩
  | init a => exact ⟨_, rfl⟩
  | twist =>
    cases hs : s.seeded with
    | false => exact ⟨raise .unseeded s, by rw [exec, execTwist_eq, hs]; rfl⟩
    | true =>
      obtain ⟨m, -, -, e⟩ := execTwist_defined hs (hdef hs)
      exact ⟨_, e⟩
  | next =>
    cases hs : s.seeded with
    | false => exact ⟨_, execNext_of_unseeded hs⟩
    | true =>
      obtain ⟨k, t₁, w, -, -, e⟩ := execNext_defined hs (hdef hs)
      exact ⟨_, e⟩
  | temper y => exact ⟨_, rfl⟩
  | new a => rcases execNew_cases a s with ⟨-, -, e⟩ | ⟨-, -, e⟩ | ⟨-, e⟩ <;> exact ⟨_, e⟩

/-! ## The invariant -/

/-- The invariant speaks of the array and `SEEDED` only. -/
theorem State.Inv.congr {s t : State} (h : s.Inv) (hmt : t.mt = s.mt) (hseeded : t.seeded = s.seeded) : t.Inv := by
  unfold State.Inv
  rw [hmt, hseeded]
  exact h

/-- A construction writes all 624 words (R67), so whatever it found, it leaves the invariant. -/
theorem construct_inv {s : State} (hwf : s.mt.wf) (seed : Word) : (construct seed s).Inv :=
  ⟨initArray_wf hwf seed, fun _ a ha => by simp [initArray_read, ha]⟩

/-- The iterations of a twist leave a value in every word when they found one there. -/
theorem twistFirst_isSome {m m' : Memory} {k : Nat} (h : ∀ a, a < 624 → (m.read a).isSome)
    (hm : twistFirst k m = .ok m') : ∀ a, a < 624 → (m'.read a).isSome := by
  obtain ⟨m₁, h₁, hdef⟩ := twistFirst_defined h k
  obtain rfl : m₁ = m' := by simpa [h₁] using hm
  exact hdef

/-- Every command keeps the invariant (R17). -/
theorem exec_keeps_inv {i : Instr} {s t : State} (hinv : s.Inv) (h : exec i s = .next t) : t.Inv := by
  rcases exec_next_writes h with ⟨st, d, rfl⟩ | ⟨-, seed, -, rfl⟩ | ⟨-, k, d, rfl⟩ | ⟨hs, m, k, d, hm, rfl⟩
  · exact hinv.congr rfl rfl
  · exact (construct_inv hinv.1 seed).congr rfl rfl
  · exact hinv.congr rfl rfl
  · exact ⟨twistFirst_wf hinv.1 hm, fun _ => twistFirst_isSome (hinv.2 hs) hm⟩

/-- An accepted command word, legal or not, keeps the invariant. -/
theorem runCommand_keeps_inv {w : CommandWord} {s t : State} (hinv : s.Inv) (h : runCommand w s = .next t) :
    t.Inv := by
  rcases runCommand_next h with ⟨i, -, hx⟩ | ⟨e, -, rfl⟩
  · exact exec_keeps_inv hinv hx
  · exact hinv.congr rfl rfl

/-- The block's reset state meets the invariant: its array is empty and it has no generator. -/
theorem resetBlock_inv (s : State) : (resetBlock s).Inv := ⟨Memory.wf_nil, fun h => nomatch h⟩

/-- Settles O17: a command keeps the invariant by `exec_keeps_inv`, `rst` makes it, and no other transaction touches the
array or `SEEDED`. -/
theorem stepKeepsInvariant : Obligations.StepKeepsInvariant := by
  intro s t hinv h
  rcases step_next_cases h with ⟨-, rfl⟩ | ⟨w, rest, -, -, rfl⟩ | ⟨w, rest, -, -, hrun⟩ | ⟨rest, -, rfl⟩ |
    ⟨e, rest, -, rfl⟩ | ⟨rest, -, rfl⟩
  · exact hinv
  · exact hinv
  · exact runCommand_keeps_inv (s := { s with inputs := rest }) (hinv.congr rfl rfl) hrun
  · exact hinv.congr rfl rfl
  · exact hinv.congr rfl rfl
  · exact resetBlock_inv _

/-- Settles O16: the reset state is what `rst` leaves of itself. -/
theorem resetMeetsInvariant : Obligations.ResetMeetsInvariant := resetBlock_inv State.reset

/-- Settles O10: no cell of the reset array is listed, so every read of it fails. -/
theorem resetState : Obligations.ResetState :=
  ⟨rfl, rfl, rfl, fun _ => memRead_eq_error.2 ⟨Memory.read_nil _, rfl⟩⟩

/-! ## Construction -/

/-- Only INIT and NEW can set `SEEDED`, and then they answer OK with no data (R18). -/
theorem exec_sets_seeded {i : Instr} {s t : State} (h : exec i s = .next t) (hs : s.seeded = false)
    (ht : t.seeded = true) : ∃ a, (i = .init a ∨ i = .new a) ∧ t.response = some ⟨.ok, 0⟩ := by
  rcases exec_next_writes h with ⟨st, d, rfl⟩ | ⟨a, seed, hi, rfl⟩ | ⟨hs', -⟩ | ⟨hs', -⟩
  · simp [hs] at ht
  · exact ⟨a, hi, rfl⟩
  · simp [hs] at hs'
  · simp [hs] at hs'

/-- A step that sets `SEEDED` accepted a command word, and its command set it. -/
theorem step_sets_seeded {s t : State} (h : step s = .next t) (hs : s.seeded = false) (ht : t.seeded = true) :
    ∃ w rest i, s.Presents w rest ∧ decode w = .ok i ∧ exec i { s with inputs := rest } = .next t := by
  have kept : ¬ t.seeded = s.seeded := by simp [hs, ht]
  rcases step_next_cases h with ⟨-, rfl⟩ | ⟨w, rest, -, -, rfl⟩ | ⟨w, rest, hi, hr, hrun⟩ | ⟨rest, -, rfl⟩ |
    ⟨e, rest, -, rfl⟩ | ⟨rest, -, rfl⟩
  · exact absurd rfl kept
  · exact absurd rfl kept
  · rcases runCommand_next hrun with ⟨i, hd, hx⟩ | ⟨e, -, rfl⟩
    · exact ⟨w, rest, i, ⟨hr, hi⟩, hd, hx⟩
    · exact absurd rfl kept
  · exact absurd rfl kept
  · exact absurd rfl kept
  · cases ht

/-- Settles O12: of all transactions only an accepted command can set `SEEDED`, and of all commands only a construction;
every INIT constructs, and so does a NEW that does not answer `ERR_ENTROPY`. -/
theorem onlyConstructionSetsSeeded : Obligations.OnlyConstructionSetsSeeded := by
  refine ⟨fun s t h hs ht => ?_, fun s t a h => ?_, fun s t a h hok => ?_⟩
  · obtain ⟨w, rest, i, hp, hd, hx⟩ := step_sets_seeded h hs ht
    obtain ⟨a, hi, hr⟩ := exec_sets_seeded hx hs ht
    exact ⟨w, rest, a, hp, by simpa only [hd, Except.ok.injEq] using hi, hr⟩
  · cases h; rfl
  · rcases execNew_next h with ⟨-, rfl⟩ | ⟨-, seed, rfl⟩
    · simp at hok
    · rfl

/-- The array a seed expands to does not depend on the array before it (R67). -/
theorem initArray_congr {m m' : Memory} (hm : m.wf) (hm' : m'.wf) (seed : Word) :
    initArray seed m' = initArray seed m := by
  rw [initArray_eq_list hm, initArray_eq_list hm']

/-- What a successful construction answers depends on the seed and the host's side of the state alone (R27). -/
theorem respond_construct_congr {s s' : State} (hwf : s.mt.wf) (hwf' : s'.mt.wf) (he : s'.entropy = s.entropy)
    (hi : s'.inputs = s.inputs) (hp : s'.params = s.params) (seed : Word) :
    respond .ok 0 (construct seed s') = respond .ok 0 (construct seed s) := by
  simp only [respond, construct, initArray_congr hwf hwf', he, hi, hp]

/-- NEW has a seed when its operand is not 0 or the hardware sample is there (R87). -/
theorem chooseSeed_defined {a : Word} {e : Entropy} (h : a ≠ 0 ∨ e.hwOk = true) (p : MixParams) :
    ∃ seed, chooseSeed a p e = .ok seed := by
  by_cases ha : a = 0
  · have hk : e.hwOk = true := h.resolve_left (not_not_intro ha)
    exact ⟨deriveSeed p e, by simp [chooseSeed, ha, hk]⟩
  · exact ⟨a, if_neg ha⟩

/-- NEW with the seed it has chosen (R87). -/
theorem execNew_of_seed {a seed : Word} {s : State} (h : chooseSeed a s.params s.entropy = .ok seed) :
    execNew a s = .next (respond .ok 0 (construct seed s)) := by
  simp [execNew, h]

/-- Settles O31: both commands choose their seed by the operand and the host's side, and the construction from a seed
forgets the rest. -/
theorem constructionForgetsThePast : Obligations.ConstructionForgetsThePast := by
  intro a s s' hwf hwf' he hi hp
  have forget := respond_construct_congr hwf hwf' he hi hp
  refine ⟨congrArg Host.Outcome.next (forget a), fun ha => ?_⟩
  obtain ⟨seed, hseed⟩ := chooseSeed_defined ha s.params
  have hseed' : chooseSeed a s'.params s'.entropy = .ok seed := by rw [hp, he, hseed]
  simp only [exec, execNew_of_seed hseed, execNew_of_seed hseed', forget]

/-! ## The transition table and the write sets -/

theorem condition_of_unseeded {s : State} (hs : s.seeded = false) : condition s = .unseeded := by
  simp [condition, hs]

theorem condition_of_lt {s : State} (hs : s.seeded = true) (h : s.idx.val < 624) : condition s = .running := by
  simp [condition, hs, h]

theorem condition_of_exhausted {s : State} (hs : s.seeded = true) (h : s.idx.val = 624) :
    condition s = .freshOrExhausted := by
  simp [condition, hs, h]

/-- Settles O40, command by command (R19). -/
theorem transitionTable : Obligations.TransitionTable := by
  intro i s t h
  cases i with
  | mix a b => cases h; exact ⟨rfl, rfl⟩
  | init a => cases h; exact condition_of_exhausted rfl rfl
  | twist =>
    rcases execTwist_next h with ⟨hs, rfl⟩ | ⟨hs, m, -, rfl⟩
    · simp only [hs, Bool.false_eq_true, if_false]
      exact ⟨rfl, rfl, condition_of_unseeded hs⟩
    · simp only [if_pos hs]
      exact ⟨condition_of_lt hs (by decide : (0 : Nat) < 624), rfl⟩
  | next =>
    rcases execNext_next_cases h with ⟨hs, rfl⟩ | ⟨hs, hlt, k, w, hk, -, rfl⟩ | ⟨hs, heq, m, w, -, -, rfl⟩
    · simp only [condition_of_unseeded hs]
      exact ⟨rfl, rfl, condition_of_unseeded hs⟩
    · simp only [condition_of_lt hs hlt]
      refine ⟨hk, ?_⟩
      split
      next h623 => exact condition_of_exhausted hs (hk.trans (by rw [h623]))
      next h623 => exact condition_of_lt hs (by simp only [respond_idx]; omega)
    · simp only [condition_of_exhausted hs heq]
      exact ⟨rfl, condition_of_lt hs (by decide : (1 : Nat) < 624)⟩
  | temper y => cases h; exact ⟨rfl, rfl⟩
  | new a =>
    rcases execNew_next h with ⟨hno, rfl⟩ | ⟨hok, seed, rfl⟩
    · simp only [if_pos hno]
      exact ⟨rfl, rfl⟩
    · simp only [if_neg hok]
      exact condition_of_exhausted rfl rfl

/-- No command writes outside the array (R25). -/
theorem exec_read_outside {i : Instr} {s t : State} (h : exec i s = .next t) {a : Nat} (ha : 624 ≤ a) :
    t.mt.read a = s.mt.read a := by
  rcases exec_next_writes h with ⟨st, d, rfl⟩ | ⟨-, seed, -, rfl⟩ | ⟨-, k, d, rfl⟩ | ⟨-, m, k, d, hm, rfl⟩
  · rfl
  · simp [initArray_read, Nat.not_lt.2 ha]
  · rfl
  · exact twistFirst_read_later le_rfl hm ha

/-- A command that answers an error writes the response alone (60_exceptions.md R94): whatever writes more answers OK. -/
theorem exec_error_writes_response {i : Instr} {s t : State} {e : ErrorCause} {d : Word} (h : exec i s = .next t)
    (hr : t.response = some ⟨.err e, d⟩) : t = { s with response := t.response } := by
  rcases exec_next_writes h with ⟨st, d', rfl⟩ | ⟨-, seed, -, rfl⟩ | ⟨-, k, d', rfl⟩ | ⟨-, m, k, d', -, rfl⟩
  · rfl
  · simp at hr
  · simp at hr
  · simp at hr

/-- NEXT with `IDX` < 624 twists nothing: it leaves the array and `SEEDED` (R25, R79). -/
theorem execNext_keeps_array {s t : State} (h : execNext s = .next t) (hlt : s.idx.val < 624) :
    t.mt = s.mt ∧ t.seeded = s.seeded := by
  rcases execNext_next_cases h with ⟨-, rfl⟩ | ⟨-, -, k, w, -, -, rfl⟩ | ⟨-, heq, -⟩
  · exact ⟨rfl, rfl⟩
  · exact ⟨rfl, rfl⟩
  · omega

/-- Settles O41, clause by clause (R25). -/
theorem writeSets : Obligations.WriteSets := by
  intro i s t h
  obtain ⟨he, hi, hp, -⟩ := exec_next_host h
  refine ⟨⟨he, hi, hp⟩, fun a => exec_read_outside h, ?_, ?_, fun e d => exec_error_writes_response h, ?_⟩
  · rintro a b rfl
    cases h; rfl
  · rintro y rfl
    cases h; rfl
  · rintro rfl hlt
    exact execNext_keeps_array h hlt

/-! ## A host's list of commands -/

/-- Decoding the word of a command gives the command back (30_encoding.md R50). -/
theorem decode_encode (i : Instr) : decode (encode i) = .ok i := by
  cases i <;> simp [decode, encode]

theorem hostProgram_cons (c : Instr) (cs : List Instr) :
    hostProgram (c :: cs) = .command (encode c) :: .takeResponse :: hostProgram cs := rfl

/-- One more command of a list, run first. -/
theorem commandsRun_cons {c : Instr} {cs : List Instr} {s t u : State} {r : Response} {rs : List Response}
    (hc : exec c s = .next t) (hr : t.response = some r)
    (hcs : commandsRun cs { t with response := none } = some (rs, u)) :
    commandsRun (c :: cs) s = some (r :: rs, u) := by
  simp [commandsRun, hc, hr, hcs]

/-- A run of a machine by its first step. -/
theorem run_succ {M : Host.Core} {s t : M.State} (h : M.step s = .next t) (k : Nat) : M.run (k + 1) s = M.run k t := by
  simp only [Host.Core.run, h]

/-- The step of a host that takes the response. -/
theorem step_of_takeResponse {s : State} {rest : List HostInput} (hi : s.inputs = .takeResponse :: rest) :
    step s = .next { s with inputs := rest, response := none } := by
  simp [step, serve, hi]

/-- The two steps of a command that a host presents and whose response it then takes (R54). -/
theorem command_then_takeResponse {s : State} {c : Instr} {rest : List HostInput} (hinv : s.Inv)
    (hr : s.response = none) (hi : s.inputs = .command (encode c) :: .takeResponse :: rest) :
    ∃ t r, step s = .next t ∧ step t = .next { t with inputs := rest, response := none } ∧ t.Inv ∧
      t.response = some r ∧ ∀ l, exec c { s with inputs := l } = .next { t with inputs := l } := by
  have hinv' : State.Inv { s with inputs := .takeResponse :: rest } := hinv.congr rfl rfl
  obtain ⟨t, ht⟩ := exec_defined c hinv'
  obtain ⟨-, hin, -, hresp⟩ := exec_next_host ht
  obtain ⟨r, hr'⟩ := Option.isSome_iff_exists.1 hresp
  refine ⟨t, r, ?_, step_of_takeResponse hin, exec_keeps_inv hinv' ht, hr',
    fun l => exec_with_inputs (s := { s with inputs := .takeResponse :: rest }) l ht⟩
  rw [step_of_command hr hi, runCommand, decode_encode]
  exact ht

/-- Settles O19, by induction on the list of commands: the two steps of the first command lead to a state that meets the
hypotheses for the rest of the list. -/
theorem hostProgramRunsInOrder : Obligations.HostProgramRunsInOrder := by
  intro cs
  induction cs with
  | nil =>
    intro s rest _ _ hi
    obtain rfl : s.inputs = rest := hi
    exact ⟨[], s, rfl, rfl, rfl, fun k hk => absurd hk (Nat.not_lt_zero k)⟩
  | cons c cs ih =>
    intro s rest hinv hr hi
    rw [hostProgram_cons] at hi
    obtain ⟨t, r, hs₁, hs₂, hinv', hr', hx⟩ := command_then_takeResponse hinv hr hi
    obtain ⟨rs, v, hrun, hlen, hend, hresp⟩ :=
      ih { t with inputs := hostProgram cs ++ rest, response := none } rest (hinv'.congr rfl rfl) rfl rfl
    have two : ∀ k, core.run (k + 2) s = core.run k { t with inputs := hostProgram cs ++ rest, response := none } :=
      fun k => (run_succ (M := core) hs₁ (k + 1)).trans (run_succ (M := core) hs₂ k)
    refine ⟨r :: rs, v, commandsRun_cons (hx rest) hr' hrun, by simp [hlen], (two _).trans hend, fun k hk => ?_⟩
    cases k with
    | zero => exact ⟨t, run_succ (M := core) hs₁ 0, hr'⟩
    | succ k =>
      obtain ⟨u, hu, hur⟩ := hresp k (Nat.lt_of_succ_lt_succ hk)
      exact ⟨u, (two _).trans hu, hur⟩

end Sys2Proof.Machine
end

section
/-! The state array as memory (20_memory.md): its reads and writes, its address forms, and the bytes of a word. -/

namespace Sys2Proof.Machine

/-! ## Reads after writes -/

/-- A read of the machine answers by the array's cell at its address alone. -/
theorem memRead_congr {m m' : Memory} {i : Fin 624} (h : m.read i.val = m'.read i.val) : memRead m i = memRead m' i := by
  simp only [memRead, h]

@[simp] theorem memRead_memWrite_same (m : Memory) (i : Fin 624) (v : Word) : memRead (memWrite m i v) i = .ok v :=
  memRead_eq_ok.2 (by rw [read_memWrite, if_pos rfl])

theorem memRead_memWrite_of_ne (m : Memory) {i j : Fin 624} (v : Word) (h : i ≠ j) :
    memRead (memWrite m i v) j = memRead m j :=
  memRead_congr (by rw [read_memWrite, if_neg (Fin.val_ne_of_ne h.symm)])

/-- Settles O8, by the two memory laws (R30). -/
theorem readsReturnTheLastWrite : Obligations.ReadsReturnTheLastWrite :=
  ⟨memRead_memWrite_same, fun m _ _ v h => memRead_memWrite_of_ne m v h⟩

/-! ## Array addresses -/

theorem wordAddr_val_of_lt {k : Nat} (h : k < 624) : (wordAddr k).val = k := Nat.mod_eq_of_lt h

theorem nextAddr_val_of_le {i : Fin 624} (h : i.val ≤ 622) : (nextAddr i).val = i.val + 1 :=
  wordAddr_val_of_lt (by omega)

theorem nextAddr_val_of_last {i : Fin 624} (h : i.val = 623) : (nextAddr i).val = 0 := by
  rw [nextAddr_val, h]

theorem middleAddr_val_of_le {i : Fin 624} (h : i.val ≤ 226) : (middleAddr i).val = i.val + 397 :=
  wordAddr_val_of_lt (by simp only [Config.m]; omega)

/-- From 227 on the sum passes 624 once, and 397 = 624 - 227. -/
theorem middleAddr_val_of_ge {i : Fin 624} (h : 227 ≤ i.val) : (middleAddr i).val = i.val - 227 := by
  have hi : i.val < 624 := i.isLt
  rw [middleAddr_val]
  omega

/-- Settles O9: a sum below 624 is its own address, and a sum from 624 on wraps once (R31). -/
theorem arrayAddressForms : Obligations.ArrayAddressForms :=
  ⟨fun _ => wordAddr_val_of_lt, fun _ => ⟨nextAddr_val_of_le, nextAddr_val_of_last⟩,
    fun _ => ⟨middleAddr_val_of_le, middleAddr_val_of_ge⟩⟩

/-! ## Bytes of a word -/

/-- The byte list of a word with each byte's place written out (R33). -/
theorem bytesOf_eq (v : Word) :
    bytesOf v = [v.extractLsb' 0 8, v.extractLsb' 8 8, v.extractLsb' 16 8, v.extractLsb' 24 8] := rfl

/-- Settles O7: the bytes stand at bits 0, 8, 16 and 24, and the spec's example is one word of that (R33). -/
theorem bytesLeastSignificantFirst : Obligations.BytesLeastSignificantFirst :=
  ⟨bytesOf_eq, (bytesOf_eq 0x12345678).trans (by decide)⟩

end Sys2Proof.Machine
end

section
/-! Encoding (30_encoding.md): command words and the commands they stand for, response words, the assembler's lines, and
the transactions at the ports. -/

namespace Sys2Proof.Machine

/-! ## Decoding and encoding -/

/-- The decode procedure of R50 on the word `{OP, A, B}`. -/
theorem decode_pack (op : BitVec 4) (a b : Word) : decode (packCommand op a b) =
    if op = 0x1 then .ok (.mix a b)
    else if op = 0x2 then .ok (.init a)
    else if op = 0x3 then .ok .twist
    else if op = 0x4 then .ok .next
    else if op = 0x5 then .ok (.temper a)
    else if op = 0x6 then .ok (.new a)
    else .error (.reservedOpcode op) := by
  have h := decode_cases (packCommand op a b)
  simp only [opcodeOf_pack, operandA_pack, operandB_pack] at h
  rcases h with ⟨rfl, h⟩ | ⟨rfl, h⟩ | ⟨rfl, h⟩ | ⟨rfl, h⟩ | ⟨rfl, h⟩ | ⟨rfl, h⟩ | ⟨rfl | h₇, h⟩
  on_goal 8 =>
    rw [if_neg, if_neg, if_neg, if_neg, if_neg, if_neg, h] <;> rintro rfl <;> exact absurd h₇ (by decide)
  all_goals exact h

theorem word_toNat (w : CommandWord) :
    w.toNat = (opcodeOf w).toNat * 2 ^ 64 + (operandA w).toNat * 2 ^ 32 + (operandB w).toNat := by
  rw [← pack_toNat, pack_fields]

theorem word_div_eq_opcode (w : CommandWord) : w.toNat / 2 ^ 64 = (opcodeOf w).toNat := by
  have ha := (operandA w).isLt
  have hb := (operandB w).isLt
  have hw := word_toNat w
  omega

theorem word_mod_eq_operandB (w : CommandWord) : w.toNat % 2 ^ 32 = (operandB w).toNat := by
  have hb := (operandB w).isLt
  have hw := word_toNat w
  omega

theorem word_mod_eq_operands (w : CommandWord) :
    w.toNat % 2 ^ 64 = (operandA w).toNat * 2 ^ 32 + (operandB w).toNat := by
  have ha := (operandA w).isLt
  have hb := (operandB w).isLt
  have hw := word_toNat w
  omega

/-- The canonical words by their fields: the opcode is a command's, and each field this command ignores is zero (R44). -/
theorem canonical_iff (w : CommandWord) : w.canonical = true ↔
    opcodeOf w = 1 ∨
    ((opcodeOf w = 2 ∨ opcodeOf w = 5 ∨ opcodeOf w = 6) ∧ operandB w = 0) ∨
    ((opcodeOf w = 3 ∨ opcodeOf w = 4) ∧ operandA w = 0 ∧ operandB w = 0) := by
  simp only [CommandWord.canonical, word_div_eq_opcode, word_mod_eq_operandB, word_mod_eq_operands, ← BitVec.toNat_inj]
  split <;> simp_all

/-- The word the encoder writes is zero in the fields its command ignores (R44, R51). -/
theorem canonical_encode (i : Instr) : (encode i).canonical = true := by
  cases i <;> simp [canonical_iff, encode]

/-- A canonical word is the only one its command is encoded as: it has the opcode and the operands of the command, and
zero elsewhere. -/
theorem encode_of_canonical {w : CommandWord} {i : Instr} (hd : decode w = .ok i) (hc : w.canonical = true) :
    encode i = w := by
  rw [canonical_iff] at hc
  rw [← pack_fields w]
  rcases decode_cases w with ⟨ho, h⟩ | ⟨ho, h⟩ | ⟨ho, h⟩ | ⟨ho, h⟩ | ⟨ho, h⟩ | ⟨ho, h⟩ | ⟨-, h⟩ <;>
    rw [h] at hd <;> cases hd <;> simp_all [encode]

/-- Settles O2: the decode procedure field by field, the encoder's words as the model packs them, and the two inverse
laws from `decode_encode`, `canonical_encode` and `encode_of_canonical` (R50). -/
theorem decodeAndEncodeAgree : Obligations.DecodeAndEncodeAgree :=
  ⟨decode_pack, fun _ _ => rfl, fun _ => rfl, rfl, rfl, fun _ => rfl, fun _ => rfl, decode_encode,
    fun _ i hd => ⟨fun he => he ▸ canonical_encode i, encode_of_canonical hd⟩, fun _ _ => rfl⟩

/-- Settles O1, by evaluating the decoder on each of the ten words (R41, R42, R45). -/
theorem writtenOutWordsDecode : Obligations.WrittenOutWordsDecode := by
  unfold Obligations.WrittenOutWordsDecode
  decide

/-! ## Ignored fields -/

theorem decode_pack_ignores_operandB {op : BitVec 4} (h : op = 0x2 ∨ op = 0x5 ∨ op = 0x6) (a b b' : Word) :
    decode (packCommand op a b) = decode (packCommand op a b') := by
  rcases h with rfl | rfl | rfl <;> simp [decode_pack]

theorem decode_pack_ignores_operands {op : BitVec 4} (h : op = 0x3 ∨ op = 0x4) (a a' b b' : Word) :
    decode (packCommand op a b) = decode (packCommand op a' b') := by
  rcases h with rfl | rfl <;> simp [decode_pack]

/-- Words that decode alike do alike: nothing but the decoded command reaches the state (R50). -/
theorem runCommand_congr {w w' : CommandWord} (h : decode w = decode w') (s : State) :
    runCommand w s = runCommand w' s := by
  simp only [runCommand, h]

/-- Settles O4: words that differ in ignored fields alone decode to one command (R44). -/
theorem ignoredFieldsHaveNoEffect : Obligations.IgnoredFieldsHaveNoEffect :=
  ⟨fun _ a b b' s h => runCommand_congr (decode_pack_ignores_operandB h a b b') s,
    fun _ a a' b b' s h => runCommand_congr (decode_pack_ignores_operands h a a' b b') s, canonical_encode⟩

/-! ## The opcode table -/

/-- The table's mask keeps the opcode and clears both operands. -/
theorem and_opcodeMask (w : CommandWord) : w &&& opcodeMask = packCommand (opcodeOf w) 0 0 := by
  have ho : opcodeOf opcodeMask = BitVec.allOnes 4 := by decide
  have ha : operandA opcodeMask = 0 := by decide
  have hb : operandB opcodeMask = 0 := by decide
  apply command_ext
  · rw [opcodeOf_pack, opcodeOf, BitVec.extractLsb'_and, ← opcodeOf, ← opcodeOf, ho, BitVec.and_allOnes]
  · rw [operandA_pack, operandA, BitVec.extractLsb'_and, ← operandA, ← operandA, ha]; exact BitVec.and_zero
  · rw [operandB_pack, operandB, BitVec.extractLsb'_and, ← operandB, ← operandB, hb]; exact BitVec.and_zero

/-- The table decoder looks at a word's operands only after its opcode has chosen the row. -/
theorem decodeByTable_eq (w : CommandWord) : decodeByTable w =
    (opcodeTable.find? fun row => packCommand (opcodeOf w) 0 0 == row.1).map
      fun row => row.2 (operandA w) (operandB w) := by
  rw [decodeByTable, and_opcodeMask]

theorem opcodeTable_opcodes : ∀ row ∈ opcodeTable, 1 ≤ (opcodeOf row.1).toNat ∧ (opcodeOf row.1).toNat ≤ 6 := by
  decide

/-- No row of the table has a reserved opcode (R45). -/
theorem decodeByTable_of_reserved {w : CommandWord} (h : opcodeOf w = 0 ∨ 7 ≤ (opcodeOf w).toNat) :
    decodeByTable w = none := by
  rw [decodeByTable_eq, Option.map_eq_none_iff, List.find?_eq_none]
  intro row hrow heq
  obtain ⟨h₁, h₆⟩ := opcodeTable_opcodes row hrow
  rw [← eq_of_beq heq, opcodeOf_pack] at h₁ h₆
  rcases h with h₀ | h₇
  · rw [h₀] at h₁
    exact absurd h₁ (by decide)
  · omega

/-- Settles O3, by the opcode: each of the six finds its own row, and the reserved ones find none (R55). -/
theorem tableDecoderAgrees : Obligations.TableDecoderAgrees := by
  intro w
  rcases decode_cases w with ⟨ho, h⟩ | ⟨ho, h⟩ | ⟨ho, h⟩ | ⟨ho, h⟩ | ⟨ho, h⟩ | ⟨ho, h⟩ | ⟨ho, h⟩ <;> rw [h]
  on_goal 7 => exact decodeByTable_of_reserved ho
  all_goals rw [decodeByTable_eq, ho]; rfl

/-! ## Responses -/

@[simp] theorem statusOfCode_code (st : Status) : statusOfCode st.code = st := by
  rcases st with _ | _ | _ | _ <;> rfl

@[simp] theorem toWord_status (r : Response) : r.toWord.extractLsb' 32 2 = r.status.code :=
  BitVec.extractLsb'_append_eq_left

@[simp] theorem toWord_data (r : Response) : r.toWord.extractLsb' 0 32 = r.data :=
  BitVec.extractLsb'_append_eq_right

theorem responseOfWord_toWord (r : Response) : responseOfWord r.toWord = r := by
  simp [responseOfWord]

/-- Settles O5: the fields of the response word, its reading, and the four codes (R46, R47). -/
theorem responseWordLayout : Obligations.ResponseWordLayout :=
  ⟨fun r => ⟨toWord_status r, toWord_data r, responseOfWord_toWord r⟩, rfl, rfl, rfl, rfl⟩

/-! ## The assembler -/

/-- Every operand is a word, so the line of a command is within R51's range. -/
theorem instrOfLine_lineOfInstr (i : Instr) : instrOfLine (lineOfInstr i) = .ok i := by
  have hlt : ∀ x : Word, x.toNat < 4294967296 := fun x => x.isLt
  cases i <;> simp [instrOfLine, lineOfInstr, hlt]

/-- A line whose operands are in range assembles when they are as many as its mnemonic takes (R51, R52). -/
theorem instrOfLine_of_takes {m : Mnemonic} {ops : List Nat} (hr : ops.all (· < 2 ^ 32) = true)
    (ht : m.takes ops.length = true) : ∃ i, instrOfLine ⟨m, ops⟩ = .ok i := by
  simp only [instrOfLine, hr, if_true]
  cases m <;> simp only [Mnemonic.takes, beq_iff_eq, decide_eq_true_eq] at ht
  case mix => obtain ⟨a, b, rfl⟩ := List.length_eq_two.1 ht; exact ⟨_, rfl⟩
  case new =>
    rcases Nat.le_one_iff_eq_zero_or_eq_one.1 ht with h₀ | h₁
    · obtain rfl := List.length_eq_zero_iff.1 h₀; exact ⟨_, rfl⟩
    · obtain ⟨a, rfl⟩ := List.length_eq_one_iff.1 h₁; exact ⟨_, rfl⟩
  case init | temper => obtain ⟨a, rfl⟩ := List.length_eq_one_iff.1 ht; exact ⟨_, rfl⟩
  case twist | next => obtain rfl := List.length_eq_zero_iff.1 ht; exact ⟨_, rfl⟩

/-- A line that assembles is well formed: each successful form of `instrOfLine` shows its operands' number. -/
theorem wellFormed_of_instrOfLine {l : AsmLine} {i : Instr} (h : instrOfLine l = .ok i) : l.wellFormed = true := by
  obtain ⟨m, ops⟩ := l
  unfold instrOfLine at h
  split at h
  next hr =>
    rw [AsmLine.wellFormed, hr, Bool.and_true]
    dsimp only at h
    split at h
    on_goal 8 => cases h
    all_goals rfl
  next => cases h

theorem wellFormed_iff_assembles (l : AsmLine) : l.wellFormed = true ↔ ∃ i, instrOfLine l = .ok i := by
  refine ⟨fun h => ?_, fun ⟨_, h⟩ => wellFormed_of_instrOfLine h⟩
  obtain ⟨ht, hr⟩ := Bool.and_eq_true_iff.1 h
  exact instrOfLine_of_takes hr ht

/-- Settles O6: the three texts by evaluation, and the lines by their mnemonics and numbers of operands (R51, R52). -/
theorem assemblerReadsCommands : Obligations.AssemblerReadsCommands :=
  ⟨by decide, by decide, by decide, by decide,
    fun i => ⟨wellFormed_of_instrOfLine (instrOfLine_lineOfInstr i), instrOfLine_lineOfInstr i⟩,
    wellFormed_iff_assembles⟩

/-! ## The ports -/

/-- With nothing presented the engine holds its state (60_exceptions.md R110). -/
theorem step_of_no_input {s : State} (hi : s.inputs = []) : step s = .next s := by
  simp [step, serve, hi]

/-- A command presented while a response is pending waits (R54). -/
theorem step_of_pending {s : State} {w : CommandWord} {rest : List HostInput} {r : Response}
    (hi : s.inputs = .command w :: rest) (hr : s.response = some r) : step s = .next s := by
  simp [step, serve, hi, ready, hr]

/-- A change of the entropy inputs changes nothing else (41_seed_mixer.md R56). -/
theorem step_of_entropy {s : State} {e : Entropy} {rest : List HostInput} (hi : s.inputs = .entropy e :: rest) :
    step s = .next { s with inputs := rest, entropy := e } := by
  simp [step, serve, hi]

/-- Settles O14: the ready engine runs the presented word, which is the execution of what it decodes to (R54). -/
theorem stepRunsTheDecodedCommand : Obligations.StepRunsTheDecodedCommand := by
  rintro s w rest i ⟨hr, hi⟩ hd
  rw [step_of_command hr hi, runCommand, hd]

/-- Settles O15, one transaction at a time (R54, 60_exceptions.md R110). -/
theorem portTransactions : Obligations.PortTransactions :=
  ⟨fun _ => step_of_no_input, fun _ _ _ _ => step_of_pending, fun _ _ => step_of_takeResponse,
    fun _ _ _ => step_of_entropy⟩

end Sys2Proof.Machine
end

section
/-! The seed mixer (41_seed_mixer.md): the double-pass hash, the derived seed, and who reads the entropy inputs. -/

namespace Sys2Proof.Machine

/-! ## The hash -/

/-- The hash is one walk over the bytes of `a` and `b`, twice in a row, since the second pass goes on from the hash the
first one left (R58). -/
theorem mix_eq_foldl (p : MixParams) (a b : Word) :
    mix p a b = (bytesOf a ++ bytesOf b ++ (bytesOf a ++ bytesOf b)).foldl (mixByte p) p.offsetBasis := by
  rw [List.foldl_append]
  rfl

/-- MIX with the hash its operands have under the state's parameters (R59). -/
theorem execMix_of_hash {s : State} {p : MixParams} {a b d : Word} (hp : s.params = p) (hd : mix p a b = d) :
    execMix a b s = .next { s with response := some ⟨.ok, d⟩ } := by
  subst hp hd
  rfl

/-- Settles O25: the sixteen steps are those of the one walk with each byte's place written out, and the four values of
R59 are hashes of fixed words. -/
theorem mixRespondsWithTheHash : Obligations.MixRespondsWithTheHash :=
  ⟨fun a b s => execMix_of_hash rfl (mix_eq_foldl s.params a b), fun _ hp =>
    ⟨execMix_of_hash hp (by decide), execMix_of_hash hp (by decide), execMix_of_hash hp (by decide),
      execMix_of_hash hp (by decide)⟩⟩

/-! ## The seed NEW chooses -/

/-- The derived seed uses the samples through the base and the cycle count alone (R62, R64). -/
theorem deriveSeed_congr (p : MixParams) {e e' : Entropy} (hbase : e.hw + e.wall = e'.hw + e'.wall)
    (hcyc : e.cyc = e'.cyc) : deriveSeed p e = deriveSeed p e' := by
  simp only [deriveSeed, mixed2, seedBase, hbase, hcyc]

/-- An operand other than 0 is the seed (R88). -/
theorem chooseSeed_of_ne {a : Word} (ha : a ≠ 0) (p : MixParams) (e : Entropy) : chooseSeed a p e = .ok a :=
  if_neg ha

/-- The operand 0 asks for the derived seed (R89). -/
theorem chooseSeed_zero_of_sample {e : Entropy} (hk : e.hwOk = true) (p : MixParams) :
    chooseSeed 0 p e = .ok (deriveSeed p e) := by
  simp [chooseSeed, hk]

/-- Without the hardware sample there is no derived seed (R90). -/
theorem chooseSeed_zero_of_no_sample {e : Entropy} (hk : e.hwOk = false) (p : MixParams) :
    chooseSeed 0 p e = .error .entropy := by
  simp [chooseSeed, hk]

/-- Entropy inputs that agree on the hardware sample's presence and derive one seed choose alike. -/
theorem chooseSeed_congr (a : Word) {p : MixParams} {e e' : Entropy} (hk : e.hwOk = e'.hwOk)
    (hd : deriveSeed p e = deriveSeed p e') : chooseSeed a p e = chooseSeed a p e' := by
  simp only [chooseSeed, hk, hd]

/-- Settles O26: with the sample there `NEW 0` chooses the derived seed, and constructs from it as INIT does, whatever
that seed is (R63, R89). -/
theorem autoSeedIsInitOfTheDerivedSeed : Obligations.AutoSeedIsInitOfTheDerivedSeed :=
  fun _ hk => ⟨_, execNew_of_seed (chooseSeed_zero_of_sample hk _), rfl, rfl, rfl, rfl⟩

/-! ## Who reads the entropy inputs -/

/-- NEW always answers a next state (R87). -/
theorem execNew_defined (a : Word) (s : State) : ∃ t, execNew a s = .next t := by
  rcases execNew_cases a s with ⟨-, -, h⟩ | ⟨-, -, h⟩ | ⟨-, h⟩ <;> exact ⟨_, h⟩

/-- NEW reads the entropy inputs only to choose its seed: inputs that choose alike do alike (R56, R87). -/
theorem execNew_with_entropy {a : Word} {s t : State} {e : Entropy}
    (hseed : chooseSeed a s.params e = chooseSeed a s.params s.entropy) (h : execNew a s = .next t) :
    execNew a { s with entropy := e } = .next { t with entropy := e } := by
  simp only [execNew, hseed] at h ⊢
  cases hc : chooseSeed a s.params s.entropy <;> rw [hc] at h <;> cases h <;> rfl

theorem twist_with_entropy {s t : State} (e : Entropy) (h : twist s = .ok t) :
    twist { s with entropy := e } = .ok { t with entropy := e } := by
  obtain ⟨m, hm, rfl⟩ := twist_eq_ok.1 h
  exact twist_eq_ok.2 ⟨m, hm, rfl⟩

theorem refresh_with_entropy {s t : State} {i : Fin 624} (e : Entropy) (h : refresh s = .ok (i, t)) :
    refresh { s with entropy := e } = .ok (i, { t with entropy := e }) := by
  rcases refresh_eq_ok h with ⟨hlt, hi, rfl⟩ | ⟨heq, rfl, ht⟩
  · obtain rfl : i = ⟨t.idx.val, hlt⟩ := Fin.ext hi
    exact refresh_of_lt (s := { t with entropy := e }) hlt
  · exact refresh_of_exhausted heq (twist_with_entropy e ht)

theorem execTwist_with_entropy {s t : State} (e : Entropy) (h : execTwist s = .next t) :
    execTwist { s with entropy := e } = .next { t with entropy := e } := by
  rcases execTwist_next h with ⟨hs, rfl⟩ | ⟨hs, m, hm, rfl⟩
  · rw [execTwist_eq, if_neg (by simp [hs])]
    rfl
  · rw [execTwist_eq, if_pos hs, hm]
    rfl

/-- NEXT on a constructed engine, from the output it finds (R80). -/
theorem execNext_of_output {s t : State} {d : Word} (hs : s.seeded = true) (h : nextOutput s = .ok (d, t)) :
    execNext s = .next (respond .ok d t) := by
  simp [execNext, hs, h]

theorem execNext_with_entropy {s t : State} (e : Entropy) (h : execNext s = .next t) :
    execNext { s with entropy := e } = .next { t with entropy := e } := by
  rcases execNext_next h with ⟨hs, rfl⟩ | ⟨hs, i, t₁, w, hr, hw, rfl⟩
  · exact execNext_of_unseeded hs
  · exact execNext_of_output (s := { s with entropy := e }) hs
      (nextOutput_eq_ok.2 ⟨i, _, w, refresh_with_entropy e hr, hw, rfl, rfl⟩)

/-- No command but a NEW with operand 0 reads the entropy inputs (R56). -/
theorem exec_with_entropy {i : Instr} {s t : State} (e : Entropy) (hi : i ≠ .new 0) (h : exec i s = .next t) :
    exec i { s with entropy := e } = .next { t with entropy := e } := by
  cases i with
  | mix a b => cases h; rfl
  | init a => cases h; rfl
  | twist => exact execTwist_with_entropy e h
  | next => exact execNext_with_entropy e h
  | temper y => cases h; rfl
  | new a =>
    have ha : a ≠ 0 := fun h₀ => hi (congrArg Instr.new h₀)
    exact execNew_with_entropy (by rw [chooseSeed_of_ne ha, chooseSeed_of_ne ha]) h

/-- Settles O28: `exec_with_entropy` for the other commands, and a `NEW 0` without the hardware sample has no seed to
derive from the four words (R56, R90). -/
theorem entropyIsReadByAutoSeedOnly : Obligations.EntropyIsReadByAutoSeedOnly := by
  refine ⟨fun _ _ _ e => exec_with_entropy e, fun s e hk hk' => ?_⟩
  obtain ⟨t, ht⟩ := execNew_defined 0 s
  exact ⟨t, ht, execNew_with_entropy
    (by rw [chooseSeed_zero_of_no_sample hk, chooseSeed_zero_of_no_sample hk']) ht⟩

/-- Settles O27: inputs with one base and one cycle count derive one seed, and NEW reads nothing else of them (R62,
R64); the worked example holds for every performance counter because it holds for one. -/
theorem derivedSeedDependsOnSumAndCycles : Obligations.DerivedSeedDependsOnSumAndCycles := by
  refine ⟨fun p _ _ => deriveSeed_congr p, fun a s e e' hk hbase hcyc => ?_, fun ok perf => ?_⟩
  · obtain ⟨t, ht⟩ := execNew_defined a { s with entropy := e }
    have hseed := chooseSeed_congr a hk (deriveSeed_congr s.params hbase hcyc)
    exact ⟨t, ht, execNew_with_entropy (s := { s with entropy := e }) hseed.symm ht⟩
  · calc deriveSeed ⟨0x811C9DC5, 0x01000193⟩ ⟨0xDEADBEEF, ok, 0x5F3759DF, perf, 0x0BADF00D⟩
      _ = deriveSeed ⟨0x811C9DC5, 0x01000193⟩ ⟨0xDEADBEEF, true, 0x5F3759DF, 0, 0x0BADF00D⟩ :=
        deriveSeed_congr _ rfl rfl
      _ = 0x8F9943C5 := by decide

end Sys2Proof.Machine
end

section
/-! The engine (42_engine.md): seed expansion, twist, temper, NEXT, and the sequence of outputs a generator gives. -/

namespace Sys2Proof.Machine

/-! ## No step stops -/

/-- Asserting `rst` (70_reset_and_hazards.md R111). -/
theorem step_of_reset {s : State} {rest : List HostInput} (hi : s.inputs = .reset :: rest) :
    step s = .next (resetBlock { s with inputs := rest }) := by
  simp [step, serve, hi]

/-- An accepted command word, legal or not, completes in a state that meets the invariant (R83). -/
theorem runCommand_defined (w : CommandWord) {s : State} (hinv : s.Inv) : ∃ t, runCommand w s = .next t := by
  unfold runCommand
  cases decode w with
  | ok i => exact exec_defined i hinv
  | error e => exact ⟨_, rfl⟩

/-- The step that accepts a command word completes, with the word taken and a response there (R83, R124). -/
theorem step_of_presented {s : State} {w : CommandWord} {rest : List HostInput} (hinv : s.Inv)
    (hp : s.Presents w rest) : ∃ t r, step s = .next t ∧ t.response = some r ∧ t.inputs = rest := by
  obtain ⟨hr, hi⟩ := hp
  have hinv' : State.Inv { s with inputs := rest } := hinv.congr rfl rfl
  obtain ⟨t, ht⟩ := runCommand_defined w hinv'
  obtain ⟨-, hrest, -, hresp⟩ := runCommand_next_host ht
  obtain ⟨r, hr'⟩ := Option.isSome_iff_exists.1 hresp
  exact ⟨t, r, (step_of_command hr hi).trans ht, hr', hrest⟩

/-- Settles O18: only an accepted command could stop the machine, and in a state that meets the invariant it completes. -/
theorem invariantStatesNeverStop : Obligations.InvariantStatesNeverStop := by
  refine ⟨fun s hinv => ?_, fun s w rest => step_of_presented⟩
  cases hi : s.inputs with
  | nil => exact ⟨_, step_of_no_input hi⟩
  | cons event rest =>
    cases event with
    | command w =>
      cases hr : s.response with
      | none =>
        obtain ⟨t, -, ht, -, -⟩ := step_of_presented hinv ⟨hr, hi⟩
        exact ⟨t, ht⟩
      | some r => exact ⟨_, step_of_pending hi hr⟩
    | takeResponse => exact ⟨_, step_of_takeResponse hi⟩
    | entropy e => exact ⟨_, step_of_entropy hi⟩
    | reset => exact ⟨_, step_of_reset hi⟩

/-! ## Seed expansion -/

/-- The words the engine expands a seed to are those of the spec's recurrence (R67). -/
theorem seedWords_seedWord (seed : Word) : SeedWords seed (seedWord seed) := ⟨rfl, fun _ _ => rfl⟩

/-- A construction leaves the words of its seed in the array (R67). -/
theorem construct_holds (seed : Word) (s : State) : (construct seed s).Holds (seedWord seed) := fun i hi => by
  rw [construct_mt, initArray_read, if_pos hi]

/-- Settles O29: INIT is a construction with the answer OK, and a construction writes the words of the seed and the two
fields R68 names. -/
theorem initExpandsTheSeed : Obligations.InitExpandsTheSeed := by
  intro seed s
  have hx : exec (.init seed) s = .next (respond .ok 0 (construct seed s)) := rfl
  obtain ⟨hzero, hsucc⟩ := seedWords_seedWord seed
  exact ⟨_, seedWord seed, hx, hzero, hsucc, fun i => memRead_eq_ok.2 (construct_holds seed s i i.isLt), rfl, rfl, rfl,
    rfl, rfl, rfl, fun a => exec_read_outside hx⟩

/-- Settles O30: the words read are those of the seed, computed for the three seeds (R68, R69). -/
theorem initCornerCases : Obligations.InitCornerCases := by
  intro s
  have word : ∀ (seed v : Word) (i : Nat), i < 624 → seedWord seed i = v →
      (respond .ok 0 (construct seed s)).mt.read i = some v :=
    fun seed v i hi hv => (construct_holds seed s i hi).trans (congrArg some hv)
  exact ⟨⟨_, rfl, word 0 _ 0 (by decide) (by decide), word 0 _ 1 (by decide) (by decide),
      word 0 _ 2 (by decide) (by decide)⟩,
    ⟨_, rfl, word 0xFFFFFFFF _ 0 (by decide) (by decide), word 0xFFFFFFFF _ 1 (by decide) (by decide)⟩,
    ⟨_, rfl, word 19650218 _ 0 (by decide) (by decide), word 19650218 _ 1 (by decide) (by decide)⟩⟩

/-! ## One twist iteration -/

/-- A twist iteration from the three words it reads (R70). -/
theorem twistStep_of_reads {i : Fin 624} {m : Memory} {u l w : Word} (hu : memRead m i = .ok u)
    (hl : memRead m (nextAddr i) = .ok l) (hw : memRead m (middleAddr i) = .ok w) :
    twistStep i m = .ok (memWrite m i (w ^^^ recurrenceF u l)) :=
  twistStep_eq_ok.2 ⟨u, l, w, memRead_eq_ok.1 hu, memRead_eq_ok.1 hl, memRead_eq_ok.1 hw, by rw [twistWord_eq]⟩

theorem upperMask_getLsbD : ∀ k : Nat, k < 32 → Config.upperMask.getLsbD k = decide (k = 31) := by decide

theorem lowerMask_getLsbD : ∀ k : Nat, k < 32 → Config.lowerMask.getLsbD k = decide (k < 31) := by decide

/-- Bit 31 of `y` is that of `u`, the others are those of `l` (R70). -/
theorem twistY_getLsbD (u l : Word) {k : Nat} (hk : k < 32) :
    (twistY u l).getLsbD k = if k = 31 then u.getLsbD 31 else l.getLsbD k := by
  simp only [twistY, BitVec.getLsbD_or, BitVec.getLsbD_and, upperMask_getLsbD k hk, lowerMask_getLsbD k hk]
  split
  next h => simp [h]
  next h => simp [h, show k < 31 by omega]

/-- `y` is the same for words that agree in the bits it takes (R70). -/
theorem twistY_congr {u u' l l' : Word} (hu : u.getLsbD 31 = u'.getLsbD 31)
    (hl : ∀ k : Nat, k < 31 → l.getLsbD k = l'.getLsbD k) : twistY u l = twistY u' l' := by
  apply BitVec.eq_of_getLsbD_eq
  intro k hk
  rw [twistY_getLsbD u l hk, twistY_getLsbD u' l' hk]
  split
  · exact hu
  · exact hl k (by omega)

/-- Settles O33: the iteration writes `twistStep_of_reads`'s word and no other, and `u` and `l` enter it through `y`
alone (R70). -/
theorem twistIteration : Obligations.TwistIteration := by
  refine ⟨fun i m u l w hu hl hw => ⟨_, twistStep_of_reads hu hl hw, ?_, fun j hj => ?_⟩, fun u u' l l' w hu hl => ?_⟩
  · rw [memRead_memWrite_same, BitVec.xor_assoc]
    rfl
  · rw [read_memWrite, if_neg hj]
  · simp only [twistWord, twistY_congr hu hl]

/-! ## TWIST -/

/-- On an array that holds `x` a whole pass completes, leaves the words of the closed form, and writes nothing outside
the array (R71, R73). -/
theorem twistFirst_of_holds {s : State} {x : Nat → Word} (hx : s.Holds x) :
    ∃ (m : Memory) (x' : Nat → Word), twistFirst 624 s.mt = .ok m ∧ (∀ i, i < 624 → m.read i = some (x' i)) ∧
      TwistWords x x' ∧ ∀ a, 624 ≤ a → m.read a = s.mt.read a := by
  obtain ⟨m, hm, -⟩ := twistFirst_defined (fun a ha => by rw [hx a ha]; rfl) 624
  obtain ⟨x', hx', hw⟩ := twistFirst_words hx hm
  exact ⟨m, x', hm, hx', hw, fun a => twistFirst_read_later le_rfl hm⟩

/-- TWIST on a constructed engine, from the array its pass leaves (R72). -/
theorem execTwist_of_pass {s : State} {m : Memory} (hs : s.seeded = true) (hm : twistFirst 624 s.mt = .ok m) :
    execTwist s = .next (respond .ok 0 { s with mt := m, idx := 0 }) := by
  rw [execTwist_eq, if_pos hs, hm]

/-- Settles O34: the closed form of `twistFirst_of_holds` is the index by index form of R73. -/
theorem twistIsTheInPlacePass : Obligations.TwistIsTheInPlacePass := by
  intro s x hs hx
  obtain ⟨m, x', hm, hx', ⟨hlow, hmiddle, hlast⟩, hout⟩ := twistFirst_of_holds hx
  exact ⟨_, x', execTwist_of_pass hs hm, hx', hlow, hmiddle, hlast, rfl, hs, rfl, rfl, rfl, rfl, hout⟩

/-- Zeros are a twist of zeros: `f(0, 0)` = 0 (95_test_vectors.md V-TW-5). -/
theorem twistWords_zero : TwistWords (fun _ => 0) (fun _ => 0) := by
  have hf : (0 : Word) = 0 ^^^ recurrenceF 0 0 := by decide
  exact ⟨fun _ _ => hf, fun _ _ _ => hf, hf⟩

/-- Settles O35: a pass reads the array alone, so `IDX` is overwritten unread (R72); and since the closed form determines
the twisted words, zeros become zeros. -/
theorem twistIgnoresTheCursor : Obligations.TwistIgnoresTheCursor := by
  refine ⟨fun s k hs => ?_, fun s hs hx => ?_⟩
  · simp only [exec, execTwist_eq, if_pos hs]
  · obtain ⟨m, x', hm, hx', hw, -⟩ := twistFirst_of_holds hx
    exact ⟨_, execTwist_of_pass hs hm, fun i hi => (hx' i hi).trans (congrArg some (hw.unique twistWords_zero i hi))⟩

/-! ## The temper transform -/

/-- A step of the transform to the right: XOR with the word shifted right (R76). -/
def xorRight (k : Nat) (y : Word) : Word := y ^^^ (y >>> k)

/-- A step of the transform to the left: XOR with the word shifted left and masked (R76). -/
def xorLeft (k : Nat) (c y : Word) : Word := y ^^^ ((y <<< k) &&& c)

/-- `temper` is its four steps, one after another (R76). -/
theorem temper_eq_comp : temper = xorRight Config.temperL ∘ xorLeft Config.temperT Config.temperC ∘
    xorLeft Config.temperS Config.temperB ∘ xorRight Config.temperU := rfl

theorem xorRight_getLsbD (k : Nat) (y : Word) (i : Nat) :
    (xorRight k y).getLsbD i = (y.getLsbD i ^^ y.getLsbD (i + k)) := by
  simp [xorRight, Nat.add_comm]

theorem xorLeft_getLsbD (k : Nat) (c y : Word) {i : Nat} (hi : i < 32) :
    (xorLeft k c y).getLsbD i = (y.getLsbD i ^^ (!decide (i < k) && y.getLsbD (i - k) && c.getLsbD i)) := by
  simp only [xorLeft, BitVec.getLsbD_xor, BitVec.getLsbD_and, BitVec.getLsbD_shiftLeft, hi, decide_true, Bool.true_and]

/-- A step to the right can be undone from the highest bit down: each bit is XORed with a higher one. -/
theorem xorRight_injective {k : Nat} (hk : 0 < k) : Function.Injective (xorRight k) := by
  intro y z h
  have bits : ∀ n i, 32 - i = n → y.getLsbD i = z.getLsbD i := by
    intro n
    induction n using Nat.strong_induction_on with
    | _ n ih =>
      intro i hn
      rcases Nat.lt_or_ge i 32 with hi | hi
      · have hbit := congrArg (BitVec.getLsbD · i) h
        simpa only [xorRight_getLsbD, ih (32 - (i + k)) (by omega) (i + k) rfl, Bool.xor_left_inj] using hbit
      · rw [BitVec.getLsbD_of_ge y i hi, BitVec.getLsbD_of_ge z i hi]
  exact BitVec.eq_of_getLsbD_eq fun i _ => bits _ i rfl

/-- A step to the left can be undone from the lowest bit up: each bit is XORed with a lower one, or with 0. -/
theorem xorLeft_injective {k : Nat} (hk : 0 < k) (c : Word) : Function.Injective (xorLeft k c) := by
  intro y z h
  have bits : ∀ i, i < 32 → y.getLsbD i = z.getLsbD i := by
    intro i
    induction i using Nat.strong_induction_on with
    | _ i ih =>
      intro hi
      have hbit := congrArg (BitVec.getLsbD · i) h
      simp only [xorLeft_getLsbD k c _ hi] at hbit
      rcases Nat.lt_or_ge i k with hlt | hge
      · simpa [hlt] using hbit
      · rwa [ih (i - k) (by omega) (by omega), Bool.xor_left_inj] at hbit
  exact BitVec.eq_of_getLsbD_eq bits

theorem xorRight_xor (k : Nat) (a b : Word) : xorRight k (a ^^^ b) = xorRight k a ^^^ xorRight k b := by
  simp only [xorRight, BitVec.ushiftRight_xor_distrib]
  ac_rfl

theorem xorLeft_xor (k : Nat) (c a b : Word) : xorLeft k c (a ^^^ b) = xorLeft k c a ^^^ xorLeft k c b := by
  apply BitVec.eq_of_getLsbD_eq
  intro i hi
  simp only [xorLeft_getLsbD k c _ hi, BitVec.getLsbD_xor, Bool.and_xor_distrib_left, Bool.and_xor_distrib_right,
    Bool.xor_assoc, Bool.xor_left_comm]

theorem temper_injective : Function.Injective temper := by
  rw [temper_eq_comp]
  exact (xorRight_injective (by decide)).comp
    ((xorLeft_injective (by decide) _).comp ((xorLeft_injective (by decide) _).comp (xorRight_injective (by decide))))

/-- Settles O37: each of the four steps is injective and linear, so `temper` is, and an injection of the finitely many
words to themselves is a bijection (R78). -/
theorem temperIsALinearBijection : Obligations.TemperIsALinearBijection :=
  ⟨by decide, Finite.injective_iff_bijective.1 temper_injective, fun a b => by
    simp only [temper_eq_comp, Function.comp_apply, xorRight_xor, xorLeft_xor]⟩

/-- Settles O36: the engine's four steps are those of R76, and the values are computed (R77). -/
theorem temperRespondsWithTheTransform : Obligations.TemperRespondsWithTheTransform := by
  refine ⟨?_, by decide, by decide, by decide, by decide, by decide, by decide⟩
  rintro y _ _ _ s rfl rfl rfl
  rfl

/-! ## NEXT -/

/-- NEXT with no twist due, from the word at the cursor (R79). -/
theorem execNext_of_word {s : State} {w : Word} (hs : s.seeded = true) (h : s.idx.val < 624)
    (hw : s.mt.read s.idx.val = some w) :
    execNext s = .next (respond .ok (temper w) { s with idx := ⟨s.idx.val + 1, by omega⟩ }) := by
  have hr : memRead s.mt ⟨s.idx.val, h⟩ = .ok w := memRead_eq_ok.2 hw
  rw [execNext_of_lt hs h, hr]

/-- NEXT with a twist due, from the array its pass leaves (R79). -/
theorem execNext_of_pass {s : State} {m : Memory} {w : Word} (hs : s.seeded = true) (h : s.idx.val = 624)
    (hm : twistFirst 624 s.mt = .ok m) (hw : m.read 0 = some w) :
    execNext s = .next (respond .ok (temper w) { s with mt := m, idx := 1 }) := by
  have hr : memRead m 0 = .ok w := memRead_eq_ok.2 hw
  rw [execNext_of_exhausted hs h, hm]
  simp only [hr]

/-- Settles O38, one condition of the engine at a time: no generator, no twist due, a twist due (R79, R80). -/
theorem nextReturnsTheTemperedWord : Obligations.NextReturnsTheTemperedWord := by
  refine ⟨fun s => execNext_of_unseeded, fun s w hs h hw => ⟨_, execNext_of_word hs h hw, rfl, rfl⟩,
    fun s x hs h hx => ?_⟩
  obtain ⟨m, x', hm, hx', hw, hout⟩ := twistFirst_of_holds hx
  exact ⟨_, x', execNext_of_pass hs h hm (hx' 0 (by decide)), hx', hw, rfl, rfl, hs, rfl, rfl, rfl, hout⟩

/-- Settles O39: TWIST leaves the array a NEXT would have left, with the cursor on the word that NEXT returned (R72,
R119). -/
theorem twistThenNextIsNext : Obligations.TwistThenNextIsNext := by
  intro s x hs h hx
  obtain ⟨m, x', hm, hx', -, -⟩ := twistFirst_of_holds hx
  have hw : m.read 0 = some (x' 0) := hx' 0 (by decide)
  exact ⟨_, _, execTwist_of_pass hs hm, execNext_of_pass hs h hm hw,
    execNext_of_word (s := respond .ok 0 { s with mt := m, idx := 0 }) hs (by decide : (0 : Nat) < 624) hw, rfl⟩

/-! ## The sequence of outputs -/

/-- The unbounded sequence of R75: the 624 words of `x`, and then the recurrence. -/
def unbounded (x : Nat → Word) (k : Nat) : Word :=
  if k < 624 then x k
  else unbounded x (k - 227) ^^^ recurrenceF (unbounded x (k - 624)) (unbounded x (k - 623))
termination_by k
decreasing_by all_goals omega

theorem unbounded_of_lt (x : Nat → Word) {k : Nat} (hk : k < 624) : unbounded x k = x k := by
  rw [unbounded, if_pos hk]

theorem unbounded_recurrence (x : Nat → Word) (k : Nat) :
    unbounded x (k + 624) = unbounded x (k + 397) ^^^ recurrenceF (unbounded x k) (unbounded x (k + 1)) := by
  rw [unbounded, if_neg (by omega), Nat.add_sub_cancel, show k + 624 - 227 = k + 397 by omega,
    show k + 624 - 623 = k + 1 by omega]

/-- 624 words of the unbounded sequence and the 624 after them are an array and its twist (R75). -/
theorem twistWords_unbounded (x : Nat → Word) (b : Nat) :
    TwistWords (fun i => unbounded x (b + i)) (fun i => unbounded x (b + 624 + i)) := by
  have next : ∀ i, unbounded x (b + 624 + i) =
      unbounded x (b + i + 397) ^^^ recurrenceF (unbounded x (b + i)) (unbounded x (b + i + 1)) := fun i => by
    rw [← unbounded_recurrence, Nat.add_right_comm]
  refine ⟨fun i _ => ?_, fun i hi _ => ?_, ?_⟩
  · simpa only [Nat.add_assoc] using next i
  · have back : 624 + (i - 227) = i + 397 := by omega
    simpa only [Nat.add_assoc, back] using next i
  · simpa only [Nat.add_assoc, Nat.reduceAdd, Nat.add_zero] using next 623

/-- What `n` NEXT commands make of a fresh generator of the words `x` (R81, R82): the array holds the block of the
unbounded sequence that the twists so far have come to, and the cursor is past the words of it that were returned. -/
structure AfterNexts (x : Nat → Word) (n : Nat) (s : State) : Prop where
  seeded : s.seeded = true
  idx    : s.idx.val = (n + 623) % 624 + 1
  words  : s.Holds fun i => unbounded x (624 * ((n + 623) / 624) + i)

/-- A fresh generator has run no NEXT. -/
theorem afterNexts_zero {s : State} {x : Nat → Word} (hs : s.seeded = true) (h : s.idx.val = 624) (hx : s.Holds x) :
    AfterNexts x 0 s where
  seeded := hs
  idx := h
  words i hi := by
    simp only [Nat.zero_add, show 623 / 624 = 0 by decide, Nat.mul_zero, unbounded_of_lt x hi]
    exact hx i hi

section
variable {x : Nat → Word} {n : Nat} {s : State}

/-- A twist is due after each whole block of 624 NEXT commands (R81). -/
theorem AfterNexts.idx_eq_iff (h : AfterNexts x n s) : s.idx.val = 624 ↔ n % 624 = 0 := by
  rw [h.idx]
  omega

theorem AfterNexts.twistDue_eq (h : AfterNexts x n s) : twistDue s = decide (n % 624 = 0) := by
  simp only [twistDue, h.seeded, Bool.true_and, h.idx_eq_iff]

/-- The NEXT after a whole block twists to the next block and returns its word 0 (R81, R82). -/
theorem AfterNexts.next_twists (h : AfterNexts x n s) (hn : n % 624 = 0) :
    ∃ u v, execNext s = .next u ∧ u.response = some ⟨.ok, temper (unbounded x (624 + n))⟩ ∧ AfterNexts x (n + 1) u ∧
      execTwist s = .next v ∧ u.mt = v.mt := by
  have block : 624 * ((n + 623) / 624) = n := by omega
  obtain ⟨m, x', hm, hx', hw, -⟩ := twistFirst_of_holds h.words
  have words : ∀ i, i < 624 → m.read i = some (unbounded x (n + 624 + i)) := fun i hi => by
    rw [hx' i hi, hw.unique (twistWords_unbounded x _) i hi, block]
  have output : m.read 0 = some (unbounded x (624 + n)) := by
    rw [words 0 (by decide), Nat.add_zero, Nat.add_comm]
  refine ⟨_, _, execNext_of_pass h.seeded (h.idx_eq_iff.2 hn) hm output, rfl, ⟨h.seeded, ?_, fun i hi => ?_⟩,
    execTwist_of_pass h.seeded hm, rfl⟩
  · show 1 = (n + 1 + 623) % 624 + 1
    omega
  · rw [show 624 * ((n + 1 + 623) / 624) = n + 624 by omega]
    exact words i hi

/-- The NEXT within a block returns its word at the cursor and leaves the block (R81, R82). -/
theorem AfterNexts.next_keeps_array (h : AfterNexts x n s) (hn : n % 624 ≠ 0) :
    ∃ u, execNext s = .next u ∧ u.response = some ⟨.ok, temper (unbounded x (624 + n))⟩ ∧ AfterNexts x (n + 1) u ∧
      u.mt = s.mt := by
  have hidx := h.idx
  have hlt : s.idx.val < 624 := by omega
  have output : s.mt.read s.idx.val = some (unbounded x (624 + n)) := by
    have cursor : 624 * ((n + 623) / 624) + s.idx.val = 624 + n := by omega
    exact cursor ▸ h.words _ hlt
  refine ⟨_, execNext_of_word h.seeded hlt output, rfl, ⟨h.seeded, ?_, ?_⟩, rfl⟩
  · show s.idx.val + 1 = (n + 1 + 623) % 624 + 1
    omega
  · rw [show (n + 1 + 623) / 624 = (n + 623) / 624 by omega]
    exact h.words

/-- Every NEXT completes with the next output of the sequence (R82). -/
theorem AfterNexts.next (h : AfterNexts x n s) :
    ∃ u, execNext s = .next u ∧ u.response = some ⟨.ok, temper (unbounded x (624 + n))⟩ ∧ AfterNexts x (n + 1) u := by
  by_cases hn : n % 624 = 0
  · obtain ⟨u, -, hu, hr, h', -, -⟩ := h.next_twists hn
    exact ⟨u, hu, hr, h'⟩
  · obtain ⟨u, hu, hr, h', -⟩ := h.next_keeps_array hn
    exact ⟨u, hu, hr, h'⟩

/-- From a fresh generator every number of NEXT commands completes, and one in 624 of them twists (R81). -/
theorem AfterNexts.run (h : AfterNexts x 0 s) (n : Nat) :
    ∃ t, nextRun n s = some t ∧ AfterNexts x n t ∧ twistsWithin n s = (n + 623) / 624 := by
  induction n with
  | zero => exact ⟨s, nextRun_zero s, h, rfl⟩
  | succ n ih =>
    obtain ⟨t, ht, hat, hcount⟩ := ih
    obtain ⟨u, hu, -, hau⟩ := hat.next
    refine ⟨u, nextRun_succ ht hu, hau, ?_⟩
    rw [twistsWithin_succ ht, hcount, hat.twistDue_eq]
    by_cases hn : n % 624 = 0
    · simp only [hn, decide_true, Bool.toNat_true]
      omega
    · simp only [hn, decide_false, Bool.toNat_false]
      omega

end

/-- Settles O43: a construction leaves a fresh generator of the seed's words, and each NEXT after it returns the next
word of their unbounded sequence (R82). -/
theorem outputSequenceOfASeed : Obligations.OutputSequenceOfASeed := by
  intro seed s
  have start : AfterNexts (seedWord seed) 0 (respond .ok 0 (construct seed s)) :=
    afterNexts_zero rfl rfl (construct_holds seed s)
  obtain ⟨hzero, hsucc⟩ := seedWords_seedWord seed
  refine ⟨_, unbounded (seedWord seed), rfl, fun hne => execNew_of_seed (chooseSeed_of_ne hne _ _),
    ⟨?_, fun i hi => ?_⟩, unbounded_recurrence _, fun n => ?_⟩
  · rw [unbounded_of_lt _ (by decide), hzero]
  · rw [unbounded_of_lt _ (by omega), unbounded_of_lt _ (by omega), hsucc i hi]
  · obtain ⟨t, ht, hat, -⟩ := start.run n
    obtain ⟨u, hu, hr, -⟩ := hat.next
    exact ⟨u, nextRun_succ ht hu, hr⟩

/-- Settles O44: NEXT number `n` runs in the state after `n` − 1 of them, where a twist is due exactly when 624 divides
`n` − 1 (R81). -/
theorem periodStructure : Obligations.PeriodStructure := by
  intro s x hs h hx n hn
  obtain ⟨k, rfl⟩ := Nat.exists_eq_add_of_le' hn
  have start : AfterNexts x 0 s := afterNexts_zero hs h hx
  obtain ⟨t, ht, hat, -⟩ := start.run k
  obtain ⟨u, hu, hau, hcount⟩ := start.run (k + 1)
  have due : (k + 1) % 624 = 1 ↔ k % 624 = 0 := by omega
  have same : ∀ {u'}, execNext t = .next u' → u = u' := fun hu' =>
    Option.some.inj (hu.symm.trans (nextRun_succ ht hu'))
  refine ⟨t, u, ht, hu, hat.idx_eq_iff.trans due.symm, fun hk => ?_, fun hk => ?_, ?_, hcount⟩
  · obtain ⟨u', v, hu', -, -, hv, hmt⟩ := hat.next_twists (due.1 hk)
    exact ⟨v, hv, same hu' ▸ hmt⟩
  · obtain ⟨u', hu', -, -, hmt⟩ := hat.next_keeps_array (fun h₀ => hk (due.2 h₀))
    exact same hu' ▸ hmt
  · rw [hau.idx]
    omega

end Sys2Proof.Machine
end

section
/-! Construction (43_construction.md): NEW with a seed of its own. -/

namespace Sys2Proof.Machine

/-- NEW with an operand other than 0 is INIT of that operand (R88): it chooses the operand itself as its seed, and
completes. -/
theorem execNew_of_ne {a : Word} (ha : a ≠ 0) (s : State) : execNew a s = execInit a s :=
  execNew_of_seed (chooseSeed_of_ne ha s.params s.entropy)

/-- Settles O32: NEW is INIT of its operand in every state, so under any entropy inputs, and INIT always leaves a fresh
generator (R88). -/
theorem explicitNewIsInit : Obligations.ExplicitNewIsInit :=
  fun _ _ _ ha => ⟨_, execNew_of_ne ha _, rfl, rfl, rfl, rfl⟩

end Sys2Proof.Machine
end

section
/-! Errors (60_exceptions.md): the three causes, each answered exactly in its own case, and what an error leaves. -/

namespace Sys2Proof.Machine

/-! ## When a word is answered an error -/

/-- The one case in which a command word is answered each error, as the "Raised by" lines of R95 to R97 name it.
`runCommand_of_errorCase` and `runCommand_error_case` tie it to the engine. -/
def ErrorCase (w : CommandWord) (s : State) : ErrorCause → Prop
  | .illegal => ∃ x, decode w = .error x
  | .unseeded => s.seeded = false ∧ (decode w = .ok .next ∨ decode w = .ok .twist)
  | .entropy => decode w = .ok (.new 0) ∧ s.entropy.hwOk = false

/-- TWIST before construction (R72). -/
theorem execTwist_of_unseeded {s : State} (hs : s.seeded = false) : execTwist s = .next (raise .unseeded s) := by
  rw [execTwist_eq, hs]
  rfl

/-- NEW without a seed of its own or a hardware sample (R90). -/
theorem execNew_of_no_sample {s : State} (hk : s.entropy.hwOk = false) :
    execNew 0 s = .next (raise .entropy s) := by
  rw [execNew, chooseSeed_zero_of_no_sample hk]

/-- A word in the case of an error is answered that error and nothing else happens, from every state (R94, R101). -/
theorem runCommand_of_errorCase {w : CommandWord} {s : State} {e : ErrorCause} (h : ErrorCase w s e) :
    runCommand w s = .next (raise e s) := by
  unfold runCommand
  cases e with
  | illegal =>
    obtain ⟨x, hd⟩ := h
    rw [hd]
  | unseeded =>
    obtain ⟨hs, hd | hd⟩ := h <;> rw [hd]
    · exact execNext_of_unseeded hs
    · exact execTwist_of_unseeded hs
  | entropy =>
    obtain ⟨hd, hk⟩ := h
    rw [hd]
    exact execNew_of_no_sample hk

/-- Of the commands only NEXT, TWIST and NEW answer errors, and each of them one error in one case. -/
theorem exec_error_case {w : CommandWord} {i : Instr} {s t : State} {e : ErrorCause} {d : Word}
    (hd : decode w = .ok i) (h : exec i s = .next t) (hr : t.response = some ⟨.err e, d⟩) : ErrorCase w s e := by
  cases i with
  | mix a b => cases h; simp at hr
  | init a => cases h; simp at hr
  | twist =>
    rcases execTwist_next h with ⟨hs, rfl⟩ | ⟨-, m, -, rfl⟩
    · cases hr
      exact ⟨hs, .inr hd⟩
    · simp at hr
  | next =>
    rcases execNext_next_cases h with ⟨hs, rfl⟩ | ⟨-, -, k, w', -, -, rfl⟩ | ⟨-, -, m, w', -, -, rfl⟩
    · cases hr
      exact ⟨hs, .inl hd⟩
    · simp at hr
    · simp at hr
  | temper y => cases h; simp at hr
  | new a =>
    rcases execNew_next h with ⟨⟨rfl, hk⟩, rfl⟩ | ⟨-, seed, rfl⟩
    · cases hr
      exact ⟨hd, hk⟩
    · simp at hr

/-- A word answered an error is in the case of that error (R101). -/
theorem runCommand_error_case {w : CommandWord} {s t : State} {e : ErrorCause} {d : Word}
    (h : runCommand w s = .next t) (hr : t.response = some ⟨.err e, d⟩) : ErrorCase w s e := by
  rcases runCommand_next h with ⟨i, hd, hx⟩ | ⟨x, hd, rfl⟩
  · exact exec_error_case hd hx hr
  · cases hr
    exact ⟨x, hd⟩

/-- A word answered an error raises it: the response is the error with `DATA` = 0 and the rest is as it was (R94). -/
theorem runCommand_error_raises {w : CommandWord} {s t : State} {e : ErrorCause} {d : Word}
    (h : runCommand w s = .next t) (hr : t.response = some ⟨.err e, d⟩) : t = raise e s := by
  rw [runCommand_of_errorCase (runCommand_error_case h hr)] at h
  cases h
  rfl

/-- The status of an answered word is an error exactly in the case of that error (R101). -/
theorem runCommand_status_iff {w : CommandWord} {s t : State} {r : Response} (h : runCommand w s = .next t)
    (hr : t.response = some r) (e : ErrorCause) : r.status = .err e ↔ ErrorCase w s e := by
  constructor
  · intro hst
    exact runCommand_error_case h (d := r.data) (by rw [hr, ← hst])
  · intro hc
    rw [runCommand_of_errorCase hc] at h
    cases h
    cases hr
    rfl

/-! ## The cases by the fields of the word -/

/-- `ERR_ILLEGAL` is a matter of the opcode alone (R97). -/
theorem errorCase_illegal_iff (op : BitVec 4) (a b : Word) (s : State) :
    ErrorCase (packCommand op a b) s .illegal ↔ op = 0x0 ∨ 0x7 ≤ op.toNat := by
  have h := decode_cases (packCommand op a b)
  rw [opcodeOf_pack] at h
  rcases h with ⟨rfl, h⟩ | ⟨rfl, h⟩ | ⟨rfl, h⟩ | ⟨rfl, h⟩ | ⟨rfl, h⟩ | ⟨rfl, h⟩ | ⟨hop, h⟩
  on_goal 7 => exact iff_of_true ⟨_, h⟩ hop
  all_goals simp [ErrorCase, decode_pack]

/-- `ERR_UNSEEDED` is for the opcodes of TWIST and NEXT while there is no generator (R96). -/
theorem errorCase_unseeded_iff (op : BitVec 4) (a b : Word) (s : State) :
    ErrorCase (packCommand op a b) s .unseeded ↔ (op = 0x3 ∨ op = 0x4) ∧ s.seeded = false := by
  have hnext : decode (packCommand op a b) = .ok .next ↔ op = 0x4 := by rw [decode_pack]; grind
  have htwist : decode (packCommand op a b) = .ok .twist ↔ op = 0x3 := by rw [decode_pack]; grind
  simp only [ErrorCase, hnext, htwist, and_comm, or_comm]

/-- `ERR_ENTROPY` is for the opcode of NEW with `A` = 0 while the hardware sample is missing (R95). -/
theorem errorCase_entropy_iff (op : BitVec 4) (a b : Word) (s : State) :
    ErrorCase (packCommand op a b) s .entropy ↔ op = 0x6 ∧ a = 0 ∧ s.entropy.hwOk = false := by
  have hnew : decode (packCommand op a b) = .ok (.new 0) ↔ op = 0x6 ∧ a = 0 := by rw [decode_pack]; grind
  simp only [ErrorCase, hnew, and_assoc]

/-! ## What an error leaves behind -/

/-- No command reads the response of the one before it (R94). -/
theorem exec_ignores_response (i : Instr) (s : State) (r : Option Response) :
    exec i { s with response := r } = exec i s := by
  cases i with
  | mix a b => rfl
  | init a => rfl
  | twist =>
    simp only [exec, execTwist_eq]
    cases twistFirst 624 s.mt <;> rfl
  | next =>
    simp only [exec]
    by_cases hs : s.seeded = true
    · rcases Nat.lt_or_eq_of_le (Nat.le_of_lt_succ s.idx.isLt) with hlt | heq
      · rw [execNext_of_lt hs hlt, execNext_of_lt (s := { s with response := r }) hs hlt]
        rfl
      · rw [execNext_of_exhausted hs heq, execNext_of_exhausted (s := { s with response := r }) hs heq]
        cases twistFirst 624 s.mt <;> rfl
    · rw [Bool.not_eq_true] at hs
      rw [execNext_of_unseeded hs, execNext_of_unseeded (s := { s with response := r }) hs]
      rfl
  | temper y => rfl
  | new a => rfl

/-- What an accepted word does is the same whatever was answered before it (R94). -/
theorem runCommand_ignores_response (w : CommandWord) (s : State) (r : Option Response) :
    runCommand w { s with response := r } = runCommand w s := by
  unfold runCommand
  cases decode w with
  | ok i => exact exec_ignores_response i s r
  | error x => rfl

/-- Settles O20: an error is answered by `raise`, which writes the response alone, and no command reads the response it
finds (R94). -/
theorem errorsChangeNothing : Obligations.ErrorsChangeNothing := by
  refine ⟨fun s t w e d h hr => ?_, fun s w r => runCommand_ignores_response w s r⟩
  obtain rfl := runCommand_error_raises h hr
  cases hr
  exact ⟨rfl, rfl⟩

/-- An accepted word, legal or not, clears no generator. -/
theorem runCommand_keeps_seeded {w : CommandWord} {s t : State} (h : runCommand w s = .next t)
    (hs : s.seeded = true) : t.seeded = true := by
  rcases runCommand_next h with ⟨i, -, hx⟩ | ⟨x, -, rfl⟩
  · exact exec_next_seeded hx hs
  · exact hs

/-- A generator stays until `rst` is asserted (70_reset_and_hazards.md R111). -/
theorem step_keeps_seeded {s t : State} (h : step s = .next t) (hs : s.seeded = true)
    (hno : ∀ rest, s.inputs ≠ .reset :: rest) : t.seeded = true := by
  rcases step_next_cases h with ⟨-, rfl⟩ | ⟨w, rest, -, -, rfl⟩ | ⟨w, rest, -, -, hrun⟩ | ⟨rest, -, rfl⟩ |
    ⟨e, rest, -, rfl⟩ | ⟨rest, hi, -⟩
  · exact hs
  · exact hs
  · exact runCommand_keeps_seeded hrun hs
  · exact hs
  · exact hs
  · exact absurd hi (hno rest)

/-- Settles O21: both refusals from every state without a generator, the converse from `runCommand_error_case`, and
`step_keeps_seeded` (R96). -/
theorem unseededRefusal : Obligations.UnseededRefusal :=
  ⟨fun _ hs => ⟨execNext_of_unseeded hs, execTwist_of_unseeded hs⟩, fun _ _ _ _ => runCommand_error_case,
    fun _ _ => step_keeps_seeded⟩

/-- Settles O22: a word is in the case of `ERR_ILLEGAL` when its opcode is reserved, and an opcode from 1 to 6 is not
(R97). -/
theorem reservedOpcodesAreIllegal : Obligations.ReservedOpcodesAreIllegal := by
  refine ⟨fun op a b s hop => runCommand_of_errorCase ((errorCase_illegal_iff op a b s).2 hop),
    fun op a b d s t hlo hhi h hr => ?_⟩
  rcases (errorCase_illegal_iff op a b s).1 (runCommand_error_case h hr) with rfl | h₇
  · exact absurd hlo (by decide)
  · omega

/-- Settles O23: without the sample `NEW 0` has no seed, and a word answered `ERR_ENTROPY` is in that case (R90, R95). -/
theorem entropyFailure : Obligations.EntropyFailure :=
  ⟨fun _ => execNew_of_no_sample, fun _ _ _ _ => runCommand_error_case⟩

/-- Settles O24: the step runs the presented word, `runCommand_status_iff` says which error it is answered, and the three
cases are read off the fields of the word (R98, R101). -/
theorem completeTableOfOutcomes : Obligations.CompleteTableOfOutcomes := by
  intro s op a b rest hinv hp
  obtain ⟨t, r, ht, hr, -⟩ := step_of_presented hinv hp
  have hrun : runCommand (packCommand op a b) { s with inputs := rest } = .next t :=
    (step_of_command hp.1 hp.2).symm.trans ht
  have hstatus := runCommand_status_iff hrun hr
  refine ⟨t, r, ht, hr, (hstatus .illegal).trans (errorCase_illegal_iff ..),
    (hstatus .unseeded).trans (errorCase_unseeded_iff ..),
    (hstatus .entropy).trans (errorCase_entropy_iff ..), fun hne => ?_⟩
  obtain ⟨status, data⟩ := r
  cases status with
  | ok => exact absurd rfl hne
  | err e =>
    obtain rfl := runCommand_error_raises hrun hr
    cases hr
    rfl

end Sys2Proof.Machine
end

section
/-! Reset (70_reset_and_hazards.md): asserting `rst`, and the words of `MT` it leaves unspecified. -/

namespace Sys2Proof.Machine

/-! ## Asserting `rst` -/

/-- Settles O11: `step_of_reset` is the first half, and the second is the contrapositive of `step_keeps_seeded` (R111). -/
theorem onlyResetClearsSeeded : Obligations.OnlyResetClearsSeeded := by
  refine ⟨fun _ _ => step_of_reset, fun s t h hs ht => ?_⟩
  by_contra hno
  have kept : t.seeded = true := step_keeps_seeded h hs fun rest hi => hno ⟨rest, hi⟩
  simp [ht] at kept

/-! ## The unspecified words -/

/-- NEW that finds no seed raises the error of the choice (R87, R90). -/
theorem execNew_of_error {a : Word} {s : State} {e : ErrorCause} (h : chooseSeed a s.params s.entropy = .error e) :
    execNew a s = .next (raise e s) := by
  rw [execNew, h]

/-- Before construction a command either responds and leaves the rest, or constructs. Which of the two it does, the
response and the seed are settled by the operands and the host's side of the state: they are the same for every array
(R112). -/
theorem exec_of_unseeded (i : Instr) {s : State} (hs : s.seeded = false) :
    (∃ st d, ∀ m, exec i { s with mt := m } = .next (respond st d { s with mt := m })) ∨
    (∃ seed, ∀ m, exec i { s with mt := m } = .next (respond .ok 0 (construct seed { s with mt := m }))) := by
  cases i with
  | mix a b => exact .inl ⟨.ok, mix s.params a b, fun _ => rfl⟩
  | init a => exact .inr ⟨a, fun _ => rfl⟩
  | twist => exact .inl ⟨.err .unseeded, 0, fun _ => execTwist_of_unseeded hs⟩
  | next => exact .inl ⟨.err .unseeded, 0, fun _ => execNext_of_unseeded hs⟩
  | temper y => exact .inl ⟨.ok, temper y, fun _ => rfl⟩
  | new a =>
    cases hc : chooseSeed a s.params s.entropy with
    | error e => exact .inl ⟨.err e, 0, fun _ => execNew_of_error hc⟩
    | ok seed => exact .inr ⟨seed, fun _ => execNew_of_seed hc⟩

/-- Settles O13: by `exec_of_unseeded` both runs respond alike and construct nothing, or both construct from one seed, and
then every word is the seed's (R67, R112). -/
theorem unspecifiedWordsUnobservable : Obligations.UnspecifiedWordsUnobservable := by
  intro i s m hs
  rcases exec_of_unseeded i hs with ⟨st, d, run⟩ | ⟨seed, run⟩
  · refine ⟨_, _, run s.mt, run m, rfl, rfl, rfl, fun ht => ?_⟩
    simp [hs] at ht
  · refine ⟨_, _, run s.mt, run m, rfl, rfl, rfl, fun _ a ha => ?_⟩
    exact (construct_holds seed { s with mt := m } a ha).trans (construct_holds seed s a ha).symm

end Sys2Proof.Machine
end
